-- ==== Sys2Proof/Word.lean ====
section
/-! DEFINITION. The word type of the CocoVM CORE and its plainest arithmetic (00_scope.md R10, R11).

`uint(v)` of the spec is `v.toNat`, `sint(v)` is `v.toInt`, `v[i]` is `v.getLsbD i`, and the sign bit
`v[W-1]` is `v.msb`. Bit 0 is the least significant bit, as R10 numbers them. -/

namespace Sys2Proof

/-- A Byte, or cell: exactly `w` bits (R10). It is 8 bits wide only where `w` is 8. -/
abbrev Byte (w : Nat) := BitVec w

/-- A bit sequence of any length, most significant bit first: the source's own form of a Byte (R10), of
the ALU's raw operands (41_alu.md R196, R200) and of a program stream (20_memory.md R80). -/
abbrev Bits := List Bool

/-- The operand of an instruction as syntax: the `uint` of its operand cell. `WellFormed` bounds it by the
width. DESIGN CHOICE, safe: log entry 18. -/
abbrev Operand := Nat

/-- `bits_W(k)` of R11: the `w`-bit Byte whose `uint` is `k mod 2^w`, for any integer `k`. -/
def bitsW (w : Nat) (k : Int) : Byte w := BitVec.ofInt w k

end Sys2Proof
end

