-- ==== Sys2Proof/Config.lean ====
section
/-! DEFINITION. What an implementation fixes: the parameters of 00_scope.md R8, and the 37 instruction
variants that OPCODE_MAP numbers (30_encoding.md R112). -/

namespace Sys2Proof

/-- The 37 distinct instruction variants, in the order of R112's table. The suffix names the operand
modes: `R` is `%`, `I` is `#`, `M` is `@`, `D` is `!` (a displacement). `JZ` and `JNZ` have no variant of
their own: they share the opcodes of `JEQ` and `JNE` (R111). -/
inductive Variant where
  | hlt
  | movRR | movRI | movRM | movMR | movMI
  | addRR | addRI | addRM
  | subRR | subRI | subRM
  | mulRR | mulRI | mulRM
  | incR | decR
  | cmpRR | cmpRI | cmpRM
  | jmpR | jmpD | jcR | jcD | jncR | jncD | jeqR | jeqD | jneR | jneD
  | jgtrR | jgtrD | jlssR | jlssD
  | outR | outM
  | nop
  deriving DecidableEq, Repr

/-- `CMP_ORDER` (R8): which flags JGTR and JLSS test (44_control_flow.md R290). -/
inductive CmpOrder where
  | signedFlags
  | unsignedCarry
  deriving DecidableEq, Repr

/-- The constants of one instance (R7, R8, 10_state.md R43). The proof fields are the checks of
construction (70_reset_and_hazards.md R390, R391): no instance exists with W < 1, R < 1 or two variants
sharing an opcode. A value of OPCODE_MAP that does not fit W bits is allowed: its variant cannot be
encoded and is never decoded (R9; DEDUCED, safe: log entry 7). M is not checked (R391). -/
structure Config where
  /-- `W`, the width in bits of every cell. -/
  width : Nat
  /-- `R`, the number of general registers. -/
  regCount : Nat
  /-- `M`, the RAM capacity in cells. -/
  ramCells : Nat
  /-- `OPCODE_MAP`: entry `k` is the opcode of the variant in row `k` of R112's table. -/
  opcodeMap : Vector Nat 37
  /-- `SUB_CARRY_B_ZERO`: CARRY after subtracting zero (41_alu.md R199). -/
  subCarryBZero : Bool
  /-- `CMP_ORDER`. -/
  cmpOrder : CmpOrder
  width_pos : 1 ≤ width
  regCount_pos : 1 ≤ regCount
  opcodeMap_nodup : opcodeMap.toList.Nodup
  deriving DecidableEq, Repr

/-- The legal values of `STEP_LIMIT`: the natural numbers from 1 on (R8; 92_eei_decisions.md D17). -/
abbrev StepLimit := PNat

/-- `STEP_LIMIT` (R8): OPEN in the spec, which gives it no value (D17). It has no body, so nothing can be
proved of its value but that it is legal. DESIGN CHOICE, safe: log entry 3. -/
opaque Config.stepLimit : StepLimit

end Sys2Proof
end

