-- ==== Sys2Proof/Syntax.lean ====
section
/-! DEFINITION. The instructions of the CocoVM CORE: one constructor for each of the 41 keys of
30_encoding.md R110, which are the rows of spec/opcode_table.json. -/

namespace Sys2Proof

/-- An instruction: a key with its operand cells. The first operand is cell A, the second cell B (R100).
Suffixes: `R` register `%`, `I` immediate `#`, `M` memory `@`, `D` displacement `!`. -/
inductive Instr where
  /-- `HLT` (45_output_halt.md R333). -/
  | hlt
  /-- `MOV%%` (42_data_movement.md R230). -/
  | movRR (a b : Operand)
  /-- `MOV%#` (R231). -/
  | movRI (a b : Operand)
  /-- `MOV%@` (R232). -/
  | movRM (a b : Operand)
  /-- `MOV@%` (R233). -/
  | movMR (a b : Operand)
  /-- `MOV@#` (R234). -/
  | movMI (a b : Operand)
  /-- `ADD%%` (43_arithmetic.md R250). -/
  | addRR (a b : Operand)
  /-- `ADD%#` (R251). -/
  | addRI (a b : Operand)
  /-- `ADD%@` (R252). -/
  | addRM (a b : Operand)
  /-- `SUB%%` (R253). -/
  | subRR (a b : Operand)
  /-- `SUB%#` (R254). -/
  | subRI (a b : Operand)
  /-- `SUB%@` (R255). -/
  | subRM (a b : Operand)
  /-- `MUL%%` (R256). -/
  | mulRR (a b : Operand)
  /-- `MUL%#` (R257). -/
  | mulRI (a b : Operand)
  /-- `MUL%@` (R258). -/
  | mulRM (a b : Operand)
  /-- `INC%` (R259). -/
  | incR (a : Operand)
  /-- `DEC%` (R260). -/
  | decR (a : Operand)
  /-- `CMP%%` (R261). -/
  | cmpRR (a b : Operand)
  /-- `CMP%#` (R262). -/
  | cmpRI (a b : Operand)
  /-- `CMP%@` (R263). -/
  | cmpRM (a b : Operand)
  /-- `JMP%` (44_control_flow.md R293). -/
  | jmpR (a : Operand)
  /-- `JMP!` (R294). -/
  | jmpD (a : Operand)
  /-- `JC%` (R295). -/
  | jcR (a : Operand)
  /-- `JC!` (R296). -/
  | jcD (a : Operand)
  /-- `JNC%` (R297). -/
  | jncR (a : Operand)
  /-- `JNC!` (R298). -/
  | jncD (a : Operand)
  /-- `JEQ%` (R299). -/
  | jeqR (a : Operand)
  /-- `JZ%`, the second name of `JEQ%` (R299, R111). -/
  | jzR (a : Operand)
  /-- `JEQ!` (R300). -/
  | jeqD (a : Operand)
  /-- `JZ!`, the second name of `JEQ!` (R300, R111). -/
  | jzD (a : Operand)
  /-- `JNE%` (R301). -/
  | jneR (a : Operand)
  /-- `JNZ%`, the second name of `JNE%` (R301, R111). -/
  | jnzR (a : Operand)
  /-- `JNE!` (R302). -/
  | jneD (a : Operand)
  /-- `JNZ!`, the second name of `JNE!` (R302, R111). -/
  | jnzD (a : Operand)
  /-- `JGTR%` (R303). -/
  | jgtrR (a : Operand)
  /-- `JGTR!` (R304). -/
  | jgtrD (a : Operand)
  /-- `JLSS%` (R305). -/
  | jlssR (a : Operand)
  /-- `JLSS!` (R306). -/
  | jlssD (a : Operand)
  /-- `OUT%` (45_output_halt.md R330). -/
  | outR (a : Operand)
  /-- `OUT@` (R331). -/
  | outM (a : Operand)
  /-- `NOP` (R334). -/
  | nop
  deriving DecidableEq, Repr

end Sys2Proof
end

