-- ==== Sys2Proof/Machine/Variants.lean ====
section
/-! DEFINITION. The tables between instruction variants, keys and instructions: the row of R112's table,
the arity (40_execution_cycle.md R162), the instruction a variant makes of its operand cells, and the keys
of 30_encoding.md R110 as the assembler spells them. -/

namespace Sys2Proof

/-- The row of R112's table: the place of a variant in `Config.opcodeMap`. -/
def Variant.index : Variant → Fin 37
  | .hlt => 0
  | .movRR => 1
  | .movRI => 2
  | .movRM => 3
  | .movMR => 4
  | .movMI => 5
  | .addRR => 6
  | .addRI => 7
  | .addRM => 8
  | .subRR => 9
  | .subRI => 10
  | .subRM => 11
  | .mulRR => 12
  | .mulRI => 13
  | .mulRM => 14
  | .incR => 15
  | .decR => 16
  | .cmpRR => 17
  | .cmpRI => 18
  | .cmpRM => 19
  | .jmpR => 20
  | .jmpD => 21
  | .jcR => 22
  | .jcD => 23
  | .jncR => 24
  | .jncD => 25
  | .jeqR => 26
  | .jeqD => 27
  | .jneR => 28
  | .jneD => 29
  | .jgtrR => 30
  | .jgtrD => 31
  | .jlssR => 32
  | .jlssD => 33
  | .outR => 34
  | .outM => 35
  | .nop => 36

/-- All variants, in the order of R112's table. -/
def Variant.all : List Variant :=
  [.hlt, .movRR, .movRI, .movRM, .movMR, .movMI, .addRR, .addRI,
   .addRM, .subRR, .subRI, .subRM, .mulRR, .mulRI, .mulRM, .incR,
   .decR, .cmpRR, .cmpRI, .cmpRM, .jmpR, .jmpD, .jcR, .jcD,
   .jncR, .jncD, .jeqR, .jeqD, .jneR, .jneD, .jgtrR, .jgtrD,
   .jlssR, .jlssD, .outR, .outM, .nop]

/-- The number of sigils of a variant's key: how many operand cells a step fetches (R162). -/
def Variant.arity : Variant → Nat
  | .hlt | .nop => 0
  | .movRR | .movRI | .movRM | .movMR | .movMI | .addRR | .addRI | .addRM | .subRR | .subRI | .subRM | .mulRR | .mulRI | .mulRM | .cmpRR | .cmpRI | .cmpRM => 2
  | .incR | .decR | .jmpR | .jmpD | .jcR | .jcD | .jncR | .jncD | .jeqR | .jeqD | .jneR | .jneD | .jgtrR | .jgtrD | .jlssR | .jlssD | .outR | .outM => 1

/-- The instruction a variant makes of its operand cells; a cell past its arity does not
change it (R102). For a shared opcode it is the canonical key, `JEQ` or `JNE` (R134). -/
def Variant.instr : Variant → Operand → Operand → Instr
  | .hlt, _, _ => .hlt
  | .movRR, a, b => .movRR a b
  | .movRI, a, b => .movRI a b
  | .movRM, a, b => .movRM a b
  | .movMR, a, b => .movMR a b
  | .movMI, a, b => .movMI a b
  | .addRR, a, b => .addRR a b
  | .addRI, a, b => .addRI a b
  | .addRM, a, b => .addRM a b
  | .subRR, a, b => .subRR a b
  | .subRI, a, b => .subRI a b
  | .subRM, a, b => .subRM a b
  | .mulRR, a, b => .mulRR a b
  | .mulRI, a, b => .mulRI a b
  | .mulRM, a, b => .mulRM a b
  | .incR, a, _ => .incR a
  | .decR, a, _ => .decR a
  | .cmpRR, a, b => .cmpRR a b
  | .cmpRI, a, b => .cmpRI a b
  | .cmpRM, a, b => .cmpRM a b
  | .jmpR, a, _ => .jmpR a
  | .jmpD, a, _ => .jmpD a
  | .jcR, a, _ => .jcR a
  | .jcD, a, _ => .jcD a
  | .jncR, a, _ => .jncR a
  | .jncD, a, _ => .jncD a
  | .jeqR, a, _ => .jeqR a
  | .jeqD, a, _ => .jeqD a
  | .jneR, a, _ => .jneR a
  | .jneD, a, _ => .jneD a
  | .jgtrR, a, _ => .jgtrR a
  | .jgtrD, a, _ => .jgtrD a
  | .jlssR, a, _ => .jlssR a
  | .jlssD, a, _ => .jlssD a
  | .outR, a, _ => .outR a
  | .outM, a, _ => .outM a
  | .nop, _, _ => .nop

/-- The variant of an instruction; the alias keys have the variant of the key they alias (R111). -/
def Instr.variant : Instr → Variant
  | .hlt => .hlt
  | .movRR _ _ => .movRR
  | .movRI _ _ => .movRI
  | .movRM _ _ => .movRM
  | .movMR _ _ => .movMR
  | .movMI _ _ => .movMI
  | .addRR _ _ => .addRR
  | .addRI _ _ => .addRI
  | .addRM _ _ => .addRM
  | .subRR _ _ => .subRR
  | .subRI _ _ => .subRI
  | .subRM _ _ => .subRM
  | .mulRR _ _ => .mulRR
  | .mulRI _ _ => .mulRI
  | .mulRM _ _ => .mulRM
  | .incR _ => .incR
  | .decR _ => .decR
  | .cmpRR _ _ => .cmpRR
  | .cmpRI _ _ => .cmpRI
  | .cmpRM _ _ => .cmpRM
  | .jmpR _ => .jmpR
  | .jmpD _ => .jmpD
  | .jcR _ => .jcR
  | .jcD _ => .jcD
  | .jncR _ => .jncR
  | .jncD _ => .jncD
  | .jeqR _ => .jeqR
  | .jzR _ => .jeqR
  | .jeqD _ => .jeqD
  | .jzD _ => .jeqD
  | .jneR _ => .jneR
  | .jnzR _ => .jneR
  | .jneD _ => .jneD
  | .jnzD _ => .jneD
  | .jgtrR _ => .jgtrR
  | .jgtrD _ => .jgtrD
  | .jlssR _ => .jlssR
  | .jlssD _ => .jlssD
  | .outR _ => .outR
  | .outM _ => .outM
  | .nop => .nop

/-- Operand cell A of an instruction; the zero cell where it has none (R100, R129). -/
def Instr.operandA : Instr → Operand
  | .hlt => 0
  | .movRR a _ => a
  | .movRI a _ => a
  | .movRM a _ => a
  | .movMR a _ => a
  | .movMI a _ => a
  | .addRR a _ => a
  | .addRI a _ => a
  | .addRM a _ => a
  | .subRR a _ => a
  | .subRI a _ => a
  | .subRM a _ => a
  | .mulRR a _ => a
  | .mulRI a _ => a
  | .mulRM a _ => a
  | .incR a => a
  | .decR a => a
  | .cmpRR a _ => a
  | .cmpRI a _ => a
  | .cmpRM a _ => a
  | .jmpR a => a
  | .jmpD a => a
  | .jcR a => a
  | .jcD a => a
  | .jncR a => a
  | .jncD a => a
  | .jeqR a => a
  | .jzR a => a
  | .jeqD a => a
  | .jzD a => a
  | .jneR a => a
  | .jnzR a => a
  | .jneD a => a
  | .jnzD a => a
  | .jgtrR a => a
  | .jgtrD a => a
  | .jlssR a => a
  | .jlssD a => a
  | .outR a => a
  | .outM a => a
  | .nop => 0

/-- Operand cell B of an instruction; the zero cell where it has none (R100, R129). -/
def Instr.operandB : Instr → Operand
  | .hlt => 0
  | .movRR _ b => b
  | .movRI _ b => b
  | .movRM _ b => b
  | .movMR _ b => b
  | .movMI _ b => b
  | .addRR _ b => b
  | .addRI _ b => b
  | .addRM _ b => b
  | .subRR _ b => b
  | .subRI _ b => b
  | .subRM _ b => b
  | .mulRR _ b => b
  | .mulRI _ b => b
  | .mulRM _ b => b
  | .incR _ => 0
  | .decR _ => 0
  | .cmpRR _ b => b
  | .cmpRI _ b => b
  | .cmpRM _ b => b
  | .jmpR _ => 0
  | .jmpD _ => 0
  | .jcR _ => 0
  | .jcD _ => 0
  | .jncR _ => 0
  | .jncD _ => 0
  | .jeqR _ => 0
  | .jzR _ => 0
  | .jeqD _ => 0
  | .jzD _ => 0
  | .jneR _ => 0
  | .jnzR _ => 0
  | .jneD _ => 0
  | .jnzD _ => 0
  | .jgtrR _ => 0
  | .jgtrD _ => 0
  | .jlssR _ => 0
  | .jlssD _ => 0
  | .outR _ => 0
  | .outM _ => 0
  | .nop => 0

/-- The instruction under its canonical key: what decoding its encoding answers (R134). -/
def Instr.canonical (i : Instr) : Instr := i.variant.instr i.operandA i.operandB

/-- The key of an instruction: its mnemonic with one sigil per operand (R103, R110). -/
def Instr.key : Instr → String
  | .hlt => "HLT"
  | .movRR _ _ => "MOV%%"
  | .movRI _ _ => "MOV%#"
  | .movRM _ _ => "MOV%@"
  | .movMR _ _ => "MOV@%"
  | .movMI _ _ => "MOV@#"
  | .addRR _ _ => "ADD%%"
  | .addRI _ _ => "ADD%#"
  | .addRM _ _ => "ADD%@"
  | .subRR _ _ => "SUB%%"
  | .subRI _ _ => "SUB%#"
  | .subRM _ _ => "SUB%@"
  | .mulRR _ _ => "MUL%%"
  | .mulRI _ _ => "MUL%#"
  | .mulRM _ _ => "MUL%@"
  | .incR _ => "INC%"
  | .decR _ => "DEC%"
  | .cmpRR _ _ => "CMP%%"
  | .cmpRI _ _ => "CMP%#"
  | .cmpRM _ _ => "CMP%@"
  | .jmpR _ => "JMP%"
  | .jmpD _ => "JMP!"
  | .jcR _ => "JC%"
  | .jcD _ => "JC!"
  | .jncR _ => "JNC%"
  | .jncD _ => "JNC!"
  | .jeqR _ => "JEQ%"
  | .jzR _ => "JZ%"
  | .jeqD _ => "JEQ!"
  | .jzD _ => "JZ!"
  | .jneR _ => "JNE%"
  | .jnzR _ => "JNZ%"
  | .jneD _ => "JNE!"
  | .jnzD _ => "JNZ!"
  | .jgtrR _ => "JGTR%"
  | .jgtrD _ => "JGTR!"
  | .jlssR _ => "JLSS%"
  | .jlssD _ => "JLSS!"
  | .outR _ => "OUT%"
  | .outM _ => "OUT@"
  | .nop => "NOP"

/-- The 41 keys the assembler knows, each with the variant it selects (R110, R111, R127). -/
def keyTable : List (String × Variant) :=
  [("HLT", .hlt), ("MOV%%", .movRR), ("MOV%#", .movRI), ("MOV%@", .movRM),
   ("MOV@%", .movMR), ("MOV@#", .movMI), ("ADD%%", .addRR), ("ADD%#", .addRI),
   ("ADD%@", .addRM), ("SUB%%", .subRR), ("SUB%#", .subRI), ("SUB%@", .subRM),
   ("MUL%%", .mulRR), ("MUL%#", .mulRI), ("MUL%@", .mulRM), ("INC%", .incR),
   ("DEC%", .decR), ("CMP%%", .cmpRR), ("CMP%#", .cmpRI), ("CMP%@", .cmpRM),
   ("JMP%", .jmpR), ("JMP!", .jmpD), ("JC%", .jcR), ("JC!", .jcD),
   ("JNC%", .jncR), ("JNC!", .jncD), ("JEQ%", .jeqR), ("JZ%", .jeqR),
   ("JEQ!", .jeqD), ("JZ!", .jeqD), ("JNE%", .jneR), ("JNZ%", .jneR),
   ("JNE!", .jneD), ("JNZ!", .jneD), ("JGTR%", .jgtrR), ("JGTR!", .jgtrD),
   ("JLSS%", .jlssR), ("JLSS!", .jlssD), ("OUT%", .outR), ("OUT@", .outM),
   ("NOP", .nop)]

/-- The opcode value of a variant under an instance's OPCODE_MAP (R112, R113). -/
def Config.opcode (cfg : Config) (v : Variant) : Nat := cfg.opcodeMap[v.index]

/-- `DEFAULT_OPCODE_MAP` (R112): the row number is the opcode. -/
def defaultOpcodeMap : Vector Nat 37 :=
  #v[0, 1, 2, 3, 4, 5, 6, 7, 8, 9, 10, 11, 12, 13, 14, 15, 16, 17, 18, 19,
     20, 21, 22, 23, 24, 25, 26, 27, 28, 29, 30, 31, 32, 33, 34, 35, 36]

/-- The configuration of the source's scenarios (R8, R13): W = 8, R = 4, M = 256, `DEFAULT_OPCODE_MAP` and
both switches at their defaults. It is the instance that `State.reset` is: DESIGN CHOICE, unsafe for a claim
from that state, log entry 2. -/
def Config.default : Config where
  width := 8
  regCount := 4
  ramCells := 256
  opcodeMap := defaultOpcodeMap
  subCarryBZero := true
  cmpOrder := .signedFlags
  width_pos := by decide
  regCount_pos := by decide
  opcodeMap_nodup := by decide

end Sys2Proof
end

