-- ==== Sys2Proof/WellFormed.lean ====
section
/-! DEFINITION. What makes an instruction encodable at an instance's width (00_scope.md R9,
30_encoding.md R100, R113). An index past R or an address past M is not ill formed: those are run-time
checks (R130). -/

namespace Sys2Proof

/-- The opcode of the instruction's variant fits one cell (R9, R113). -/
abbrev Instr.OpcodeFits (cfg : Config) (i : Instr) : Prop := cfg.opcode i.variant < 2 ^ cfg.width

/-- Both operand cells hold W-bit values (R100, R106). -/
abbrev Instr.OperandsFit (cfg : Config) (i : Instr) : Prop :=
  i.operandA < 2 ^ cfg.width ∧ i.operandB < 2 ^ cfg.width

/-- An instruction that three W-bit cells can hold. -/
abbrev Instr.WellFormed (cfg : Config) (i : Instr) : Prop := i.OpcodeFits cfg ∧ i.OperandsFit cfg

end Sys2Proof
end

