-- ==== Sys2Proof/Decode.lean ====
section
/-! DEFINITION. Decoding and encoding (30_encoding.md R100 to R102, R113 to R115, R129, R134). Decoding is total
and rejects by name; the encoder is written from the same table. -/

namespace Sys2Proof

/-- Why three cells are no instruction. -/
inductive DecodeError where
  /-- Fewer than three cells: every instruction is exactly three (R100, R115). -/
  | truncated
  /-- An opcode value that OPCODE_MAP does not assign (R114). -/
  | unknownOpcode (value : Nat)
  deriving DecidableEq, Repr

/-- The variant an opcode value selects (R101): the one whose OPCODE_MAP value it is, if any. -/
def decodeOpcode (cfg : Config) (value : Nat) : Option Variant :=
  Variant.all.find? (fun v => cfg.opcode v == value)

/-- What three cells decode to: the instruction under its canonical key, and both operands read as their cell
values, the ones the instruction does not use too (R134). -/
structure Decoded (cfg : Config) where
  instr : Instr
  operandA : Byte cfg.width
  operandB : Byte cfg.width
  deriving DecidableEq, Repr

/-- Decode a sequence of cells: what the first three are, and the rest. The opcode cell is read as `uint` (R101).
An unused operand is read as its cell value (R134) and does not change the instruction (R102). -/
def decode (cfg : Config) : List (Byte cfg.width) → Except DecodeError (Decoded cfg × List (Byte cfg.width))
  | opc :: a :: b :: rest =>
    match decodeOpcode cfg opc.toNat with
    | some v => .ok (⟨v.instr a.toNat b.toNat, a, b⟩, rest)
    | none => .error (.unknownOpcode opc.toNat)
  | _ => .error .truncated

/-- The three cells of an instruction (R129); a missing operand is a zero cell. -/
def encode (cfg : Config) (i : Instr) : List (Byte cfg.width) :=
  [bitsW cfg.width (cfg.opcode i.variant), bitsW cfg.width i.operandA, bitsW cfg.width i.operandB]

/-- The three cells that decode to `d`: the opcode and both operand cells, the unused ones too. -/
def Decoded.cells {cfg : Config} (d : Decoded cfg) : List (Byte cfg.width) :=
  [bitsW cfg.width (cfg.opcode d.instr.variant), d.operandA, d.operandB]

/-- Cell `k` (0 the opcode, 1 A, 2 B) of a 3W-bit stream word (R100): the opcode stands in its top W bits. -/
def cellOfWord (w word k : Nat) : Byte w := BitVec.ofNat w (word / 2 ^ ((2 - k) * w))

/-- The three cells, in address order, of an instruction word of which the lowest `nbits` bits are given and
the bits above are zero. The numbering is the opcode table's: bit 0 is the last bit of the stream word. DEDUCED,
safe: log entry 9. -/
def cellsOfWord (w nbits word : Nat) : List (Byte w) :=
  [cellOfWord w (word % 2 ^ nbits) 0, cellOfWord w (word % 2 ^ nbits) 1, cellOfWord w (word % 2 ^ nbits) 2]

/-- The instruction the decoder reads, at the default configuration, from a table word. -/
def decodeTableWord (nbits w : Nat) : Option Instr :=
  match decode Config.default (cellsOfWord Config.default.width nbits w) with
  | .ok r => some r.1.instr
  | .error _ => none

end Sys2Proof
end

