-- ==== Sys2Proof/Machine/Codec.lean ====
section
/-! DEFINITION. The codec (41_alu.md section 1) and the conversions between a Byte and its bit sequence,
most significant bit first (00_scope.md R10, R11). -/

namespace Sys2Proof

/-- `uint` of a bit sequence (R11). -/
def Bits.uint (v : Bits) : Nat := v.foldl (fun n b => 2 * n + b.toNat) 0

/-- The `n`-bit sequence of a number, most significant bit first; higher bits are dropped. -/
def bitsOfNat : Nat → Nat → Bits
  | 0, _ => []
  | n + 1, k => bitsOfNat n (k / 2) ++ [k % 2 == 1]

/-- The bit sequence of a Byte, most significant bit first (R10). -/
def Byte.toBits {w : Nat} (v : Byte w) : Bits := bitsOfNat w v.toNat

/-- The Byte of a bit sequence: zero-extended where it is shorter than `w` bits (20_memory.md R73), its low
`w` bits where it is longer. -/
def Bits.toByte (w : Nat) (v : Bits) : Byte w := BitVec.ofNat w v.uint

/-- `zext_N` of R11. -/
def zext {w : Nat} (n : Nat) (v : Byte w) : Byte n := v.setWidth n

/-- `sext_N` of R11. -/
def sext {w : Nat} (n : Nat) (v : Byte w) : Byte n := v.signExtend n

/-- `trunc_W` of R11. -/
def trunc {w : Nat} (n : Nat) (v : Byte w) : Byte n := v.setWidth n

/-- `intToBits(value, width)` (41_alu.md R190): a magnitude of more than `width` bits is a caller error and
has no result; a negative value is the complement of the zero-padded magnitude plus one. -/
def intToBits (value : Int) (width : Nat) : Option (Byte width) :=
  if value.natAbs < 2 ^ width then
    let m := BitVec.ofNat width value.natAbs
    some (if value < 0 then ~~~m + 1#width else m)
  else none

/-- `bitsToInt(byte)` (R191): the remaining bits less `2^(W-1)` where the first bit is set. -/
def bitsToInt {w : Nat} (v : Byte w) : Int :=
  if v.msb then ((v.toNat % 2 ^ (w - 1) : Nat) : Int) - (2 ^ (w - 1) : Nat) else v.toNat

end Sys2Proof
end

