-- ==== Sys2Proof/Machine/Alu.lean ====
section
/-! DEFINITION. The ALU (41_alu.md): the raw datapath over bit sequences (most significant bit first) and the
CPU-layer functions on W-bit cells that the instruction rules call. All are pure functions. -/

namespace Sys2Proof

/-! ### The raw datapath -/

/-- The full adder (R195): the sum bit and the carry out. -/
def fullAdder (a b carry : Bool) : Bool × Bool :=
  (Bool.xor (Bool.xor a b) carry, (Bool.xor a b && carry) || (a && b))

/-- The ripple of R196 over two sequences of equal length, LEAST significant bit first; the last carry
extends the result. -/
def rippleAdd : List Bool → List Bool → Bool → List Bool
  | a :: as, b :: bs, c => (fullAdder a b c).1 :: rippleAdd as bs (fullAdder a b c).2
  | _, _, c => if c then [true] else []

/-- `zext_n` of a bit sequence. -/
def padTo (n : Nat) (v : Bits) : Bits := List.replicate (n - v.length) false ++ v

/-- `add(a, b)` (R196): ripple-carry addition of the operands zero-extended to equal length; a carry out of
the most significant bit extends the result by one bit. -/
def rawAdd (a b : Bits) : Bits :=
  let n := max a.length b.length
  (rippleAdd (padTo n a).reverse (padTo n b).reverse false).reverse

/-- The loop of R200 over the multiplier's bits, least significant first: add the multiplicand where the bit
is set, then shift the multiplicand left. -/
def mulLoop : List Bool → Bits → Bits → Bits
  | [], _, acc => acc
  | bit :: rest, m, acc => mulLoop rest (m ++ [false]) (if bit then rawAdd acc m else acc)

/-- `multiply(a, b)` on raw sequences, shift-and-add (R200, which gives it for two sequences of one length). For unequal
lengths the same loop runs, over the bits of `b` with an accumulator of the length of `a`: DESIGN CHOICE, safe: log
entry 25. -/
def rawMultiply (a b : Bits) : Bits := mulLoop b.reverse a (List.replicate a.length false)

/-- `increment(a) = add(a, one)` (R202). -/
def rawIncrement (a : Bits) : Bits := rawAdd a [true]

/-- Lexicographic comparison from the most significant bit (R204). -/
def lexLess : Bits → Bits → Bool
  | a :: as, b :: bs => if a == b then lexLess as bs else !a && b
  | _, _ => false

/-- Both operands zero-padded to equal length (R204). -/
def padBoth (a b : Bits) : Bits × Bits :=
  (padTo (max a.length b.length) a, padTo (max a.length b.length) b)

/-- The comparator's `lessThan` (R204). -/
def lessThan (a b : Bits) : Bool := lexLess (padBoth a b).1 (padBoth a b).2

/-- The comparator's `equal` (R204). -/
def equal (a b : Bits) : Bool := (padBoth a b).1 == (padBoth a b).2

/-- The comparator's `lessOrEqual` (R204). -/
def lessOrEqual (a b : Bits) : Bool := lessThan a b || equal a b

/-- The comparator's `greaterThan` (R204). -/
def greaterThan (a b : Bits) : Bool := !lessOrEqual a b

/-- The comparator's `greaterOrEqual` (R204). -/
def greaterOrEqual (a b : Bits) : Bool := !lessThan a b

/-- Shift left (R205): one bit longer. -/
def shiftLeft (a : Bits) : Bits := a ++ [false]

/-- Shift right (R205): the least significant bit drops, a zero enters at the top. The empty sequence, which has neither,
stays empty: DESIGN CHOICE, safe: log entry 26. -/
def shiftRight : Bits → Bits
  | [] => []
  | a :: as => false :: (a :: as).dropLast

/-- The logic unit's `not` (R206). -/
def logicNot (a : Bool) : Bool := !a
/-- The logic unit's `and` (R206). -/
def logicAnd (a b : Bool) : Bool := a && b
/-- The logic unit's `or` (R206). -/
def logicOr (a b : Bool) : Bool := a || b
/-- The logic unit's `nand`, `not(and)` (R206). -/
def logicNand (a b : Bool) : Bool := logicNot (logicAnd a b)
/-- The logic unit's `nor`, `not(or)` (R206). -/
def logicNor (a b : Bool) : Bool := logicNot (logicOr a b)
/-- The logic unit's `xor` (R206). -/
def logicXor (a b : Bool) : Bool := Bool.xor a b

/-- The masked AND of two equal-length sequences (R206); no result where the lengths differ (DESIGN
CHOICE, safe: log entry 21). -/
def maskedAnd (a b : Bits) : Option Bits :=
  if a.length = b.length then some (List.zipWith logicAnd a b) else none

/-! ### The CPU layer, on W-bit cells -/

/-- `ADDW` (R197): the sum mod `2^W` and the carry out of bit W-1. -/
def addW {w : Nat} (a b : Byte w) : Byte w × Bool :=
  (bitsW w (a.toNat + b.toNat), decide (2 ^ w ≤ a.toNat + b.toNat))

/-- `NEG` (R198): complement plus one, truncated to W bits. -/
def neg {w : Nat} (a : Byte w) : Byte w := (addW (~~~a) (bitsW w 1)).1

/-- `SUBW` (R199): `add(a, negate(b))`; the carry where the subtrahend is zero is the parameter
`SUB_CARRY_B_ZERO`. -/
def subW {w : Nat} (subCarryBZero : Bool) (a b : Byte w) : Byte w × Bool :=
  let r := addW a (neg b)
  (r.1, if b = 0 then subCarryBZero else r.2)

/-- The magnitude that `MULW` multiplies: a negative operand negated (R201). -/
def magnitude {w : Nat} (a : Byte w) : Byte w := if a.msb then neg a else a

/-- `MULW` (R201): the product, the carry and "either operand was zero". -/
def mulW {w : Nat} (a b : Byte w) : Byte w × Bool × Bool :=
  let p := (magnitude a).toNat * (magnitude b).toNat
  let lo := bitsW w p
  (if a.msb != b.msb then neg lo else lo, decide (2 ^ w ≤ p), decide (a = 0 ∨ b = 0))

/-- `INCW` (R202). -/
def incW {w : Nat} (a : Byte w) : Byte w × Bool := addW a (bitsW w 1)

/-- `DECW` (R203). -/
def decW {w : Nat} (subCarryBZero : Bool) (a : Byte w) : Byte w × Bool := subW subCarryBZero a (bitsW w 1)

end Sys2Proof
end

