-- ==== Sys2Proof/Machine/Flags.lean ====
section
/-! DEFINITION. Flag generation (41_alu.md section 6) and the branch conditions (44_control_flow.md R290). -/

namespace Sys2Proof.Machine

/-- The three status flags (10_state.md R36). -/
structure Flags where
  carry : Bool
  zero : Bool
  sign : Bool
  deriving DecidableEq, Repr

/-- What an arithmetic instruction takes from the ALU: the W-bit value and the flags it writes. -/
structure AluResult (w : Nat) where
  value : Byte w
  flags : Flags
  deriving DecidableEq, Repr

/-- The flags of ADD, SUB, INC, DEC and CMP (R210). -/
def aluResult {w : Nat} (r : Byte w × Bool) : AluResult w :=
  ⟨r.1, ⟨r.2, decide (r.1 = 0), r.1.msb⟩⟩

/-- The flags of MUL (R211): Z is "either operand was zero". -/
def mulResult {w : Nat} (r : Byte w × Bool × Bool) : AluResult w :=
  ⟨r.1, ⟨r.2.1, r.2.2, r.1.msb⟩⟩

/-- The mnemonics of the conditional and unconditional jumps, less their modes (R290). -/
inductive Cond where
  | always
  | carrySet
  | carryClear
  | equal
  | notEqual
  | greater
  | less
  deriving DecidableEq, Repr

/-- `COND(mnemonic)` of R290 as a function of the flags. -/
def Cond.holds (order : CmpOrder) (f : Flags) : Cond → Bool
  | .always => true
  | .carrySet => f.carry
  | .carryClear => !f.carry
  | .equal => f.zero
  | .notEqual => !f.zero
  | .greater =>
    match order with
    | .signedFlags => !f.zero && !f.sign
    | .unsignedCarry => f.carry && !f.zero
  | .less =>
    match order with
    | .signedFlags => f.sign
    | .unsignedCarry => !f.carry

end Sys2Proof.Machine
end

