-- ==== Sys2Proof/Machine/State.lean ====
section
/-! DEFINITION. The architectural state of the CORE (10_state.md), the records it logs, and the two reasons
a step could stop (neither of which arises). Plain data: every type here is comparable and printable. -/

namespace Sys2Proof.Machine

/-- A sparse Memory (20_memory.md R70, R71): the cells that differ from zero, as pairs of cell index and
value, indexes strictly rising. An unlisted cell reads 0^W. At W = 8 this is a list of `Host.Cell`. -/
abbrev Memory (w : Nat) := List (Nat × Byte w)

/-- The engine state (10_state.md R40). -/
inductive Engine where
  | idle
  | running
  | halted
  deriving DecidableEq, Repr

/-- A reported error with its info (60_exceptions.md R353): the run-time, resource and host-interface
codes, which are the ones an instance can log. The configuration and assembly codes belong to `construct`
and `compile` and never reach an instance (R354, R355). -/
inductive ErrorRecord (w : Nat) where
  /-- `ERR_ADDR`: a RAM address of M or more (R358). -/
  | errAddr (cell : Byte w)
  /-- `ERR_REG`: a register index of R or more (R356). -/
  | errReg (cell : Byte w)
  /-- `ERR_OPCODE`: an unassigned opcode, with the pc it was fetched at (R357). -/
  | errOpcode (opcode pc : Byte w)
  /-- `ERR_LOOP`: STEP_LIMIT reached (R359). -/
  | errLoop (pc : Byte w)
  /-- `HOST_ADDR_FORMAT`: an address longer than W bits. -/
  | hostAddrFormat (address : Bits)
  /-- `HOST_CAPACITY`: a value longer than W bits. -/
  | hostCapacity (value : Bits)
  /-- `HOST_LOAD_LENGTH`: a program whose length is no multiple of W. -/
  | hostLoadLength (length : Nat)
  deriving DecidableEq, Repr

/-- An event of the notification channel (70_reset_and_hazards.md R396). -/
inductive Event (w : Nat) where
  | run
  | step (pc : Byte w)
  | reset
  | error (e : ErrorRecord w)
  | out (value : Byte w)
  deriving DecidableEq, Repr

/-- The mutable state of one instance: the record of 10_state.md. -/
structure CoreState (cfg : Config) where
  /-- The R general registers, a sparse Memory (R30, R70). -/
  reg : Memory cfg.width
  /-- The M cells of RAM, a sparse Memory (R70, R77). -/
  ram : Memory cfg.width
  /-- The program counter (R33). -/
  pc : Byte cfg.width
  /-- The instruction register (R35). -/
  ir : Byte cfg.width
  /-- The flag C (R36). -/
  carry : Bool
  /-- The flag Z (R36). -/
  zero : Bool
  /-- The flag S (R36). -/
  sign : Bool
  /-- The engine state (R40). -/
  engine : Engine
  /-- The step counter of the current `run` (R42). -/
  steps : Nat
  /-- The error log, append-only (R44). -/
  errors : List (ErrorRecord cfg.width)
  /-- The event log, append-only (R45). -/
  events : List (Event cfg.width)
  deriving DecidableEq, Repr

/-- An instance: its constants, which no step or command changes (R43), and its mutable state. Carrying the constants
here is a DESIGN CHOICE, safe: log entry 1. -/
structure State where
  cfg : Config
  core : CoreState cfg
  deriving DecidableEq, Repr

/-- The faults of a step. There is none: the CORE has no trap, and a run-time error is reported while the
step runs to completion (60_exceptions.md R350, R360, R361), so this closed type has no constructor. -/
inductive Fault where
  deriving DecidableEq, Repr

/-- The refusals of a step. -/
inductive Refusal where
  /-- Raised by `exec` for an instruction that has no meaning yet. Safe: the model stops where the
  hardware goes on. No arm of `exec` answers it. -/
  | notModelled (mnemonic : String)
  deriving DecidableEq, Repr

/-- What executing an instruction answers. -/
abbrev Result := Host.Outcome State Fault Refusal

/-- The state at construction (R46): everything zero, false or empty, the engine idle. -/
def CoreState.initial (cfg : Config) : CoreState cfg where
  reg := []
  ram := []
  pc := 0
  ir := 0
  carry := false
  zero := false
  sign := false
  engine := .idle
  steps := 0
  errors := []
  events := []

/-- The machine after reset: the construction state (R46) of the default configuration. Which
configuration: DESIGN CHOICE, unsafe for a claim from this state (log entry 2); empty logs: DEDUCED (log entry 4). -/
def State.reset : State := ⟨Config.default, CoreState.initial Config.default⟩

end Sys2Proof.Machine
end

