-- ==== Sys2Proof/Machine/Ops.lean ====
section
/-! DEFINITION. The named operations over memory, registers, pc, flags and logs (20_memory.md R70 to R76,
40_execution_cycle.md R163 to R166 and R172, 60_exceptions.md R352). -/

namespace Sys2Proof.Machine

/-! ### The Memory component -/

/-- `read` of a cell index (20_memory.md R71, R72): an unlisted cell is zero. -/
def Memory.read {w : Nat} : Memory w → Nat → Byte w
  | [], _ => 0
  | (b, v) :: m, a => if a = b then v else Memory.read m a

/-- A listed cell, or nothing where the value is the zero an unlisted cell reads as. -/
def Memory.entry {w : Nat} (a : Nat) (v : Byte w) : Memory w := if v = 0 then [] else [(a, v)]

/-- `write` of a cell index (R73), in canonical form. -/
def Memory.write {w : Nat} : Memory w → Nat → Byte w → Memory w
  | [], a, v => Memory.entry a v
  | (b, u) :: m, a, v =>
    if a < b then Memory.entry a v ++ (b, u) :: m
    else if a = b then Memory.entry a v ++ m
    else (b, u) :: Memory.write m a v

/-- `clear` (R74). -/
def Memory.clear {w : Nat} (_ : Memory w) : Memory w := []

/-- The canonical form: indexes strictly rising, no listed cell zero. -/
def Memory.wf {w : Nat} : Memory w → Bool
  | [] => true
  | (b, v) :: m => decide (v ≠ 0) && m.all (fun e => decide (b < e.1)) && Memory.wf m

/-- Every listed index is below the capacity (R75). -/
def Memory.within {w : Nat} (n : Nat) (m : Memory w) : Bool := m.all (fun e => decide (e.1 < n))

/-- The Memory's `read(address)` for an address of any length (R72): an address longer than the cell width is
an addressing error. Only the host interface can present one. -/
def Memory.readBits {w : Nat} (m : Memory w) (address : Bits) : Except (ErrorRecord w) (Byte w) :=
  if w < address.length then .error (.hostAddrFormat address) else .ok (m.read address.uint)

/-- The Memory's `write(address, value)` for an address and a value of any length (R73): the same address
check, a capacity error for a value longer than the cell width, a shorter one left-padded with zeros. -/
def Memory.writeBits {w : Nat} (m : Memory w) (address value : Bits) :
    Except (ErrorRecord w) (Memory w) :=
  if w < address.length then .error (.hostAddrFormat address)
  else if w < value.length then .error (.hostCapacity value)
  else .ok (m.write address.uint (value.toByte w))

namespace CoreState

variable {cfg : Config}

/-! ### Events and errors -/

/-- `emit` (00_scope.md R12): append an event. -/
def emit (e : Event cfg.width) (s : CoreState cfg) : CoreState cfg := { s with events := s.events ++ [e] }

/-- `raise E(info)` (60_exceptions.md R352): the one way an error is reported. It appends to the error log,
emits the `error` event and changes nothing else; the step goes on. -/
def raise (e : ErrorRecord cfg.width) (s : CoreState cfg) : CoreState cfg :=
  { s with errors := s.errors ++ [e], events := s.events ++ [.error e] }

/-! ### Registers and RAM -/

/-- `x[c]` (40_execution_cycle.md R163). -/
def readReg (c : Byte cfg.width) (s : CoreState cfg) : Byte cfg.width × CoreState cfg :=
  if c.toNat < cfg.regCount then (s.reg.read c.toNat, s) else (0, s.raise (.errReg c))

/-- `x[c] <- v` (R164). -/
def writeReg (c v : Byte cfg.width) (s : CoreState cfg) : CoreState cfg :=
  if c.toNat < cfg.regCount then { s with reg := s.reg.write c.toNat v } else s.raise (.errReg c)

/-- `MemRead(c, 1)` (R165). -/
def memRead (c : Byte cfg.width) (s : CoreState cfg) : Byte cfg.width × CoreState cfg :=
  if c.toNat < cfg.ramCells then (s.ram.read c.toNat, s) else (0, s.raise (.errAddr c))

/-- `MemWrite(c, 1, v)` (R166). -/
def memWrite (c v : Byte cfg.width) (s : CoreState cfg) : CoreState cfg :=
  if c.toNat < cfg.ramCells then { s with ram := s.ram.write c.toNat v } else s.raise (.errAddr c)

/-- The Memory's write of a value of any length to a cell (20_memory.md R73): HOST_CAPACITY where the value
is longer than W bits, else `MemWrite` of the value left-padded with zeros. -/
def memWriteBits (c : Byte cfg.width) (value : Bits) (s : CoreState cfg) : CoreState cfg :=
  if cfg.width < value.length then s.raise (.hostCapacity value)
  else s.memWrite c (value.toByte cfg.width)

/-! ### Program counter and flags -/

/-- `pc <- target` (00_scope.md R12). -/
def setPc (target : Byte cfg.width) (s : CoreState cfg) : CoreState cfg := { s with pc := target }

/-- The address of the next instruction in sequence, `bits_W(uint(pc) + 3)` (40_execution_cycle.md R172). -/
def nextPc (s : CoreState cfg) : Byte cfg.width := bitsW cfg.width (s.pc.toNat + 3)

/-- The pc advance of a non-branching instruction (R172). -/
def advance (s : CoreState cfg) : CoreState cfg := s.setPc s.nextPc

/-- The flags as one value. -/
def flags (s : CoreState cfg) : Flags := ⟨s.carry, s.zero, s.sign⟩

/-- Write all three flags (10_state.md R37). -/
def setFlags (f : Flags) (s : CoreState cfg) : CoreState cfg :=
  { s with carry := f.carry, zero := f.zero, sign := f.sign }

/-- Set the engine state (10_state.md R40). -/
def setEngine (e : Engine) (s : CoreState cfg) : CoreState cfg := { s with engine := e }

end CoreState

end Sys2Proof.Machine
end

