-- ==== Sys2Proof/Machine/Operands.lean ====
section
/-! DEFINITION. Operand access by mode (40_execution_cycle.md R168, 30_encoding.md R103 to R107), and the
instruction shapes every meaning is a line over: move, binary arithmetic, unary arithmetic, compare, jump,
output. -/

namespace Sys2Proof.Machine

/-- The modes of a source operand: `%`, `#`, `@` (R168). -/
inductive SrcMode where
  | reg
  | imm
  | mem
  deriving DecidableEq, Repr

/-- The modes of a destination operand: `%`, `@` (R168). -/
inductive DstMode where
  | reg
  | mem
  deriving DecidableEq, Repr

/-- The operand cell an instruction's operand stands for. -/
abbrev cell (cfg : Config) (k : Operand) : Byte cfg.width := bitsW cfg.width k

/-- Every instruction completes: `f` is what it does to the mutable state (60_exceptions.md R361). -/
def State.complete (s : State) (f : CoreState s.cfg → CoreState s.cfg) : Result := .next ⟨s.cfg, f s.core⟩

namespace CoreState

variable {cfg : Config}

/-- `SRC(mode, c)` (R168). -/
def src (m : SrcMode) (c : Byte cfg.width) (s : CoreState cfg) : Byte cfg.width × CoreState cfg :=
  match m with
  | .reg => s.readReg c
  | .imm => (c, s)
  | .mem => s.memRead c

/-- `DST(mode, c) <- v` (R168). -/
def dst (m : DstMode) (c v : Byte cfg.width) (s : CoreState cfg) : CoreState cfg :=
  match m with
  | .reg => s.writeReg c v
  | .mem => s.memWrite c v

/-- MOV in every mode (42_data_movement.md): read the source, write the destination, advance. -/
def move (d : DstMode) (m : SrcMode) (a b : Byte cfg.width) (s : CoreState cfg) : CoreState cfg :=
  let v := s.src m b
  (v.2.dst d a v.1).advance

/-- ADD, SUB and MUL in every mode (43_arithmetic.md): read `x[A]`, then B's source, compute, write `x[A]`,
write the flags, advance. -/
def binary (m : SrcMode) (f : Byte cfg.width → Byte cfg.width → AluResult cfg.width)
    (a b : Byte cfg.width) (s : CoreState cfg) : CoreState cfg :=
  let p := s.readReg a
  let q := p.2.src m b
  let r := f p.1 q.1
  ((q.2.writeReg a r.value).setFlags r.flags).advance

/-- INC and DEC (R259, R260). -/
def unary (f : Byte cfg.width → AluResult cfg.width) (a : Byte cfg.width) (s : CoreState cfg) :
    CoreState cfg :=
  let p := s.readReg a
  let r := f p.1
  ((p.2.writeReg a r.value).setFlags r.flags).advance

/-- CMP in every mode (R261 to R263): the flags of the subtraction; the result is discarded. -/
def compare (m : SrcMode) (a b : Byte cfg.width) (s : CoreState cfg) : CoreState cfg :=
  let p := s.readReg a
  let q := p.2.src m b
  (q.2.setFlags (aluResult (subW cfg.subCarryBZero p.1 q.1)).flags).advance

/-- Whether a jump is taken, from the flags at the start of the step (44_control_flow.md R290). -/
def taken (c : Cond) (s : CoreState cfg) : Bool := c.holds cfg.cmpOrder s.flags

/-- The target of a `!` form, `bits_W(uint(pc) + 3 * sint(A))` (R291). -/
def relTarget (a : Byte cfg.width) (s : CoreState cfg) : Byte cfg.width :=
  bitsW cfg.width (s.pc.toNat + 3 * a.toInt)

/-- A `%` jump (R292): the register is read only when the jump is taken. -/
def jumpAbs (c : Cond) (a : Byte cfg.width) (s : CoreState cfg) : CoreState cfg :=
  if s.taken c then
    let t := s.readReg a
    t.2.setPc t.1
  else s.advance

/-- A `!` jump (R291). -/
def jumpRel (c : Cond) (a : Byte cfg.width) (s : CoreState cfg) : CoreState cfg :=
  if s.taken c then s.setPc (s.relTarget a) else s.advance

/-- OUT in both modes (45_output_halt.md R330, R331). -/
def output (m : SrcMode) (a : Byte cfg.width) (s : CoreState cfg) : CoreState cfg :=
  let v := s.src m a
  (v.2.emit (.out v.1)).advance

end CoreState

end Sys2Proof.Machine
end

