-- ==== Sys2Proof/Machine/Arithmetic.lean ====
section
/-! DEFINITION. Arithmetic and comparison (43_arithmetic.md). A is the first source and, except for CMP, the destination;
B is the second source. Every instruction here writes all three flags. -/

namespace Sys2Proof.Machine

/-- `ADD%%` (R250). -/
def execAddRR (a b : Operand) (s : State) : Result :=
  s.complete (CoreState.binary .reg (fun p q => aluResult (addW p q)) (cell s.cfg a) (cell s.cfg b))

/-- `ADD%#` (R251). -/
def execAddRI (a b : Operand) (s : State) : Result :=
  s.complete (CoreState.binary .imm (fun p q => aluResult (addW p q)) (cell s.cfg a) (cell s.cfg b))

/-- `ADD%@` (R252). -/
def execAddRM (a b : Operand) (s : State) : Result :=
  s.complete (CoreState.binary .mem (fun p q => aluResult (addW p q)) (cell s.cfg a) (cell s.cfg b))

/-- `SUB%%` (R253). -/
def execSubRR (a b : Operand) (s : State) : Result :=
  s.complete (CoreState.binary .reg (fun p q => aluResult (subW s.cfg.subCarryBZero p q)) (cell s.cfg a) (cell s.cfg b))

/-- `SUB%#` (R254). -/
def execSubRI (a b : Operand) (s : State) : Result :=
  s.complete (CoreState.binary .imm (fun p q => aluResult (subW s.cfg.subCarryBZero p q)) (cell s.cfg a) (cell s.cfg b))

/-- `SUB%@` (R255). -/
def execSubRM (a b : Operand) (s : State) : Result :=
  s.complete (CoreState.binary .mem (fun p q => aluResult (subW s.cfg.subCarryBZero p q)) (cell s.cfg a) (cell s.cfg b))

/-- `MUL%%` (R256). -/
def execMulRR (a b : Operand) (s : State) : Result :=
  s.complete (CoreState.binary .reg (fun p q => mulResult (mulW p q)) (cell s.cfg a) (cell s.cfg b))

/-- `MUL%#` (R257). -/
def execMulRI (a b : Operand) (s : State) : Result :=
  s.complete (CoreState.binary .imm (fun p q => mulResult (mulW p q)) (cell s.cfg a) (cell s.cfg b))

/-- `MUL%@` (R258). -/
def execMulRM (a b : Operand) (s : State) : Result :=
  s.complete (CoreState.binary .mem (fun p q => mulResult (mulW p q)) (cell s.cfg a) (cell s.cfg b))

/-- `INC%` (R259). -/
def execIncR (a : Operand) (s : State) : Result :=
  s.complete (CoreState.unary (fun p => aluResult (incW p)) (cell s.cfg a))

/-- `DEC%` (R260). -/
def execDecR (a : Operand) (s : State) : Result :=
  s.complete (CoreState.unary (fun p => aluResult (decW s.cfg.subCarryBZero p)) (cell s.cfg a))

/-- `CMP%%` (R261). -/
def execCmpRR (a b : Operand) (s : State) : Result :=
  s.complete (CoreState.compare .reg (cell s.cfg a) (cell s.cfg b))

/-- `CMP%#` (R262). -/
def execCmpRI (a b : Operand) (s : State) : Result :=
  s.complete (CoreState.compare .imm (cell s.cfg a) (cell s.cfg b))

/-- `CMP%@` (R263). -/
def execCmpRM (a b : Operand) (s : State) : Result :=
  s.complete (CoreState.compare .mem (cell s.cfg a) (cell s.cfg b))

end Sys2Proof.Machine
end

