-- ==== Sys2Proof/Machine/ControlFlow.lean ====
section
/-! DEFINITION. Control flow (44_control_flow.md). A jump writes no register, RAM cell or flag. `JZ` and `JNZ` are second names
of `JEQ` and `JNE` (30_encoding.md R111). -/

namespace Sys2Proof.Machine

/-- `JMP%` (R293). -/
def execJmpR (a : Operand) (s : State) : Result := s.complete (CoreState.jumpAbs .always (cell s.cfg a))

/-- `JMP!` (R294). -/
def execJmpD (a : Operand) (s : State) : Result := s.complete (CoreState.jumpRel .always (cell s.cfg a))

/-- `JC%` (R295). -/
def execJcR (a : Operand) (s : State) : Result := s.complete (CoreState.jumpAbs .carrySet (cell s.cfg a))

/-- `JC!` (R296). -/
def execJcD (a : Operand) (s : State) : Result := s.complete (CoreState.jumpRel .carrySet (cell s.cfg a))

/-- `JNC%` (R297). -/
def execJncR (a : Operand) (s : State) : Result := s.complete (CoreState.jumpAbs .carryClear (cell s.cfg a))

/-- `JNC!` (R298). -/
def execJncD (a : Operand) (s : State) : Result := s.complete (CoreState.jumpRel .carryClear (cell s.cfg a))

/-- `JEQ%` (R299). -/
def execJeqR (a : Operand) (s : State) : Result := s.complete (CoreState.jumpAbs .equal (cell s.cfg a))

/-- `JEQ!` (R300). -/
def execJeqD (a : Operand) (s : State) : Result := s.complete (CoreState.jumpRel .equal (cell s.cfg a))

/-- `JZ%` (R299). -/
def execJzR (a : Operand) (s : State) : Result := s.complete (CoreState.jumpAbs .equal (cell s.cfg a))

/-- `JZ!` (R300). -/
def execJzD (a : Operand) (s : State) : Result := s.complete (CoreState.jumpRel .equal (cell s.cfg a))

/-- `JNE%` (R301). -/
def execJneR (a : Operand) (s : State) : Result := s.complete (CoreState.jumpAbs .notEqual (cell s.cfg a))

/-- `JNE!` (R302). -/
def execJneD (a : Operand) (s : State) : Result := s.complete (CoreState.jumpRel .notEqual (cell s.cfg a))

/-- `JNZ%` (R301). -/
def execJnzR (a : Operand) (s : State) : Result := s.complete (CoreState.jumpAbs .notEqual (cell s.cfg a))

/-- `JNZ!` (R302). -/
def execJnzD (a : Operand) (s : State) : Result := s.complete (CoreState.jumpRel .notEqual (cell s.cfg a))

/-- `JGTR%` (R303). -/
def execJgtrR (a : Operand) (s : State) : Result := s.complete (CoreState.jumpAbs .greater (cell s.cfg a))

/-- `JGTR!` (R304). -/
def execJgtrD (a : Operand) (s : State) : Result := s.complete (CoreState.jumpRel .greater (cell s.cfg a))

/-- `JLSS%` (R305). -/
def execJlssR (a : Operand) (s : State) : Result := s.complete (CoreState.jumpAbs .less (cell s.cfg a))

/-- `JLSS!` (R306). -/
def execJlssD (a : Operand) (s : State) : Result := s.complete (CoreState.jumpRel .less (cell s.cfg a))

end Sys2Proof.Machine
end

