-- ==== Sys2Proof/Machine/DataMovement.lean ====
section
/-! DEFINITION. Data movement (42_data_movement.md). A is the destination, B the source; no MOV writes a flag. -/

namespace Sys2Proof.Machine

/-- `MOV%%` (R230). -/
def execMovRR (a b : Operand) (s : State) : Result :=
  s.complete (CoreState.move .reg .reg (cell s.cfg a) (cell s.cfg b))

/-- `MOV%#` (R231). -/
def execMovRI (a b : Operand) (s : State) : Result :=
  s.complete (CoreState.move .reg .imm (cell s.cfg a) (cell s.cfg b))

/-- `MOV%@` (R232). -/
def execMovRM (a b : Operand) (s : State) : Result :=
  s.complete (CoreState.move .reg .mem (cell s.cfg a) (cell s.cfg b))

/-- `MOV@%` (R233). -/
def execMovMR (a b : Operand) (s : State) : Result :=
  s.complete (CoreState.move .mem .reg (cell s.cfg a) (cell s.cfg b))

/-- `MOV@#` (R234). -/
def execMovMI (a b : Operand) (s : State) : Result :=
  s.complete (CoreState.move .mem .imm (cell s.cfg a) (cell s.cfg b))

end Sys2Proof.Machine
end

