-- ==== Sys2Proof/Machine/OutputHalt.lean ====
section
/-! DEFINITION. Output, halt and no-op (45_output_halt.md). -/

namespace Sys2Proof.Machine

/-- `OUT%` (R330). -/
def execOutR (a : Operand) (s : State) : Result := s.complete (CoreState.output .reg (cell s.cfg a))

/-- `OUT@` (R331). -/
def execOutM (a : Operand) (s : State) : Result := s.complete (CoreState.output .mem (cell s.cfg a))

/-- `HLT` (R333). -/
def execHlt (s : State) : Result := s.complete (fun c => (c.setEngine .halted).advance)

/-- `NOP` (R334). -/
def execNop (s : State) : Result := s.complete (CoreState.advance)

end Sys2Proof.Machine
end

