-- ==== Sys2Proof/Machine/Dispatch.lean ====
section
/-! DEFINITION. One arm per constructor of Instr: the `EXEC_v(a, b)` of 40_execution_cycle.md R160. -/

namespace Sys2Proof.Machine

-- EXEC of one instruction on the state its fetches leave; it ends by writing pc (R160).
def exec (i : Instr) (s : State) : Host.Outcome State Fault Refusal :=
  match i with
  | .hlt => Sys2Proof.Machine.execHlt s
  | .movRR a b => Sys2Proof.Machine.execMovRR a b s
  | .movRI a b => Sys2Proof.Machine.execMovRI a b s
  | .movRM a b => Sys2Proof.Machine.execMovRM a b s
  | .movMR a b => Sys2Proof.Machine.execMovMR a b s
  | .movMI a b => Sys2Proof.Machine.execMovMI a b s
  | .addRR a b => Sys2Proof.Machine.execAddRR a b s
  | .addRI a b => Sys2Proof.Machine.execAddRI a b s
  | .addRM a b => Sys2Proof.Machine.execAddRM a b s
  | .subRR a b => Sys2Proof.Machine.execSubRR a b s
  | .subRI a b => Sys2Proof.Machine.execSubRI a b s
  | .subRM a b => Sys2Proof.Machine.execSubRM a b s
  | .mulRR a b => Sys2Proof.Machine.execMulRR a b s
  | .mulRI a b => Sys2Proof.Machine.execMulRI a b s
  | .mulRM a b => Sys2Proof.Machine.execMulRM a b s
  | .incR a => Sys2Proof.Machine.execIncR a s
  | .decR a => Sys2Proof.Machine.execDecR a s
  | .cmpRR a b => Sys2Proof.Machine.execCmpRR a b s
  | .cmpRI a b => Sys2Proof.Machine.execCmpRI a b s
  | .cmpRM a b => Sys2Proof.Machine.execCmpRM a b s
  | .jmpR a => Sys2Proof.Machine.execJmpR a s
  | .jmpD a => Sys2Proof.Machine.execJmpD a s
  | .jcR a => Sys2Proof.Machine.execJcR a s
  | .jcD a => Sys2Proof.Machine.execJcD a s
  | .jncR a => Sys2Proof.Machine.execJncR a s
  | .jncD a => Sys2Proof.Machine.execJncD a s
  | .jeqR a => Sys2Proof.Machine.execJeqR a s
  | .jzR a => Sys2Proof.Machine.execJzR a s
  | .jeqD a => Sys2Proof.Machine.execJeqD a s
  | .jzD a => Sys2Proof.Machine.execJzD a s
  | .jneR a => Sys2Proof.Machine.execJneR a s
  | .jnzR a => Sys2Proof.Machine.execJnzR a s
  | .jneD a => Sys2Proof.Machine.execJneD a s
  | .jnzD a => Sys2Proof.Machine.execJnzD a s
  | .jgtrR a => Sys2Proof.Machine.execJgtrR a s
  | .jgtrD a => Sys2Proof.Machine.execJgtrD a s
  | .jlssR a => Sys2Proof.Machine.execJlssR a s
  | .jlssD a => Sys2Proof.Machine.execJlssD a s
  | .outR a => Sys2Proof.Machine.execOutR a s
  | .outM a => Sys2Proof.Machine.execOutM a s
  | .nop => Sys2Proof.Machine.execNop s

end Sys2Proof.Machine
end

