-- ==== Sys2Proof/Machine/Cycle.lean ====
section
/-! DEFINITION. One step (40_execution_cycle.md R160 to R162, R167, R169): fetch, decode, operand fetch, execute,
notify; and placing an instruction word where the next step fetches it. -/

namespace Sys2Proof.Machine

namespace CoreState

variable {cfg : Config}

/-- Fetch (R161): `ir <- MemRead(pc, 1)`. -/
def fetch (s : CoreState cfg) : CoreState cfg :=
  let r := s.memRead s.pc
  { r.2 with ir := r.1 }

/-- The address of operand cell `k` (1 for A, 2 for B): `bits_W(uint(pc) + k)` (10_state.md R34). -/
def operandAddr (k : Nat) (s : CoreState cfg) : Byte cfg.width := bitsW cfg.width (s.pc.toNat + k)

/-- Fetch of operand cell A, only for an arity of at least 1 (R162). -/
def fetchA (v : Variant) (s : CoreState cfg) : Byte cfg.width × CoreState cfg :=
  if 1 ≤ v.arity then s.memRead (s.operandAddr 1) else (0, s)

/-- Fetch of operand cell B, only for arity 2 (R162). -/
def fetchB (v : Variant) (s : CoreState cfg) : Byte cfg.width × CoreState cfg :=
  if v.arity = 2 then s.memRead (s.operandAddr 2) else (0, s)

/-- An unknown opcode (R167): ERR_OPCODE with the opcode cell and the pc, then pc + 3. -/
def unknownOpcode (s : CoreState cfg) : CoreState cfg := (s.raise (.errOpcode s.ir s.pc)).advance

/-- The last event of every step: the new pc (R169). -/
def notifyStep (s : CoreState cfg) : CoreState cfg := s.emit (.step s.pc)

/-- Put an instruction word in the three cells that the next step fetches (pc, pc+1, pc+2, each mod 2^W), as
far as they lie in RAM. -/
def placeWord (nbits w : Nat) (s : CoreState cfg) : CoreState cfg :=
  let put (k : Nat) (t : CoreState cfg) : CoreState cfg :=
    if (s.operandAddr k).toNat < cfg.ramCells then
      { t with ram := t.ram.write (s.operandAddr k).toNat (cellOfWord cfg.width (w % 2 ^ nbits) k) }
    else t
  put 2 (put 1 (put 0 s))

end CoreState

/-- The `step(pc)` event at the end of a step that executed an instruction (R169). -/
def notifyResult : Result → Result
  | .next t => .next ⟨t.cfg, t.core.notifyStep⟩
  | .fault r => .fault r
  | .refused r => .refused r

/-- The whole step (R160). It reads and changes neither `steps` nor the engine state, but for what HLT does
(70_reset_and_hazards.md R395). -/
def stepInstruction (s : State) : Result :=
  let c := s.core.fetch
  match decodeOpcode s.cfg c.ir.toNat with
  | none => .next ⟨s.cfg, c.unknownOpcode.notifyStep⟩
  | some v =>
    let a := c.fetchA v
    let b := a.2.fetchB v
    notifyResult (exec (v.instr a.1.toNat b.1.toNat) ⟨s.cfg, b.2⟩)

end Sys2Proof.Machine
end

