-- ==== Sys2Proof/Machine/Step.lean ====
section
/-! DEFINITION. The machine's step: the CORE's `step()` (40_execution_cycle.md R160, 70_reset_and_hazards.md
R395), which executes one instruction in any engine state. The run loop around it is in Commands.lean (DEDUCED, safe:
log entry 6). -/

namespace Sys2Proof.Machine

/-- One step. -/
def step (s : State) : Host.Outcome State Fault Refusal := Sys2Proof.Machine.stepInstruction s

/-- `s` with an instruction word stored where `step` fetches its next instruction. It stands for a program
load at pc (DEDUCED, safe: log entry 10). -/
def State.withFetchWord (s : State) (nbits w : Nat) : State :=
  ⟨s.cfg, Sys2Proof.Machine.CoreState.placeWord nbits w s.core⟩

end Sys2Proof.Machine
end

