-- ==== Sys2Proof/Machine/Commands.lean ====
section
/-! DEFINITION. The host commands (70_reset_and_hazards.md R390 to R399) and the run loop
(40_execution_cycle.md R170). Each is one atomic transaction. -/

namespace Sys2Proof.Machine

/-! ### Construction -/

/-- Why no instance exists (60_exceptions.md R353, R354). -/
inductive ConfigError where
  /-- `CFG_WIDTH`, with W. -/
  | cfgWidth (width : Nat)
  /-- `CFG_REGS`, with R. -/
  | cfgRegs (regCount : Nat)
  /-- An OPCODE_MAP that gives two variants one value: refused when it is given (R391, 30_encoding.md R113).
  The spec names no code for it: DESIGN CHOICE, safe, log entry 8. -/
  | badOpcodeMap
  deriving DecidableEq, Repr

/-- `construct(W, R, M)` with the model's parameters (R390, R391): the width is checked first; M is not
checked. -/
def construct (width regCount ramCells : Nat) (opcodeMap : Vector Nat 37) (subCarryBZero : Bool)
    (cmpOrder : CmpOrder) : Except ConfigError State :=
  if hw : 1 ≤ width then
    if hr : 1 ≤ regCount then
      if hm : opcodeMap.toList.Nodup then
        let cfg : Config :=
          ⟨width, regCount, ramCells, opcodeMap, subCarryBZero, cmpOrder, hw, hr, hm⟩
        .ok ⟨cfg, CoreState.initial cfg⟩
      else .error .badOpcodeMap
    else .error (.cfgRegs regCount)
  else .error (.cfgWidth width)

namespace CoreState

variable {cfg : Config}

/-! ### Reset and load -/

/-- `reset(clear_regs, clear_ram)` (R392). The logs are kept. -/
def resetCommand (clearRegs clearRam : Bool) (s : CoreState cfg) : CoreState cfg :=
  let r : CoreState cfg :=
    if clearRegs then
      { s with reg := s.reg.clear, pc := 0, ir := 0, carry := false, zero := false, sign := false }
    else s
  let m : CoreState cfg := if clearRam then { r with ram := r.ram.clear } else r
  ({ m with engine := .idle, steps := 0 } : CoreState cfg).emit .reset

/-- Cut a bit sequence into `n` Bytes of `w` bits, in order. -/
def bytesOf (w : Nat) : Nat → Bits → List Bits
  | 0, _ => []
  | n + 1, bits => bits.take w :: bytesOf w n (bits.drop w)

/-- Write Bytes at increasing addresses, advancing by ALU increment mod `2^W` (R393). -/
def loadBytes : List Bits → Byte cfg.width → CoreState cfg → CoreState cfg
  | [], _, s => s
  | v :: rest, a, s => loadBytes rest (incW a).1 (s.memWriteBits a v)

/-- `loadProgram(bits, address)` (R393). -/
def loadProgram (bits address : Bits) (s : CoreState cfg) : CoreState cfg :=
  if cfg.width < address.length then s.raise (.hostAddrFormat address)
  else if bits.length % cfg.width ≠ 0 then s.raise (.hostLoadLength bits.length)
  else s.loadBytes (bytesOf cfg.width (bits.length / cfg.width) bits) (address.toByte cfg.width)

/-! ### Run -/

/-- The start of a run (40_execution_cycle.md R170): pc, engine and steps set, then the event `run`. -/
def beginRun (start : Byte cfg.width) (s : CoreState cfg) : CoreState cfg :=
  ({ s with pc := start, engine := .running, steps := 0 } : CoreState cfg).emit .run

/-- The step limit is reached (R170, 60_exceptions.md R359): ERR_LOOP, then `halted`. -/
def stopAtLimit (s : CoreState cfg) : CoreState cfg := (s.raise (.errLoop s.pc)).setEngine .halted

/-- `steps <- steps + 1` (R170). -/
def countStep (s : CoreState cfg) : CoreState cfg := { s with steps := s.steps + 1 }

end CoreState

/-- The loop of R170 under a step limit; `fuel` bounds the recursion and never runs out in `runWith`. -/
def runLoop (limit : Nat) : Nat → State → Result
  | 0, s => .next s
  | fuel + 1, s =>
    if s.core.engine = .running then
      if limit ≤ s.core.steps then .next ⟨s.cfg, s.core.stopAtLimit⟩
      else
        match step s with
        | .next t => runLoop limit fuel ⟨t.cfg, t.core.countStep⟩
        | .fault r => .fault r
        | .refused r => .refused r
    else .next s

/-- `run(startAddress)` under a step limit (R170, R394): an address longer than W bits is reported and nothing
else happens; a shorter one is left-padded. -/
def runWith (limit : StepLimit) (start : Bits) (s : State) : Result :=
  if s.cfg.width < start.length then .next ⟨s.cfg, s.core.raise (.hostAddrFormat start)⟩
  else runLoop limit.val (limit.val + 1) ⟨s.cfg, s.core.beginRun (start.toByte s.cfg.width)⟩

/-! ### The commands as one type -/

/-- The host commands an instance takes (R397); construct and compile are functions of their own. -/
inductive Command where
  | reset (clearRegs clearRam : Bool)
  | loadProgram (bits address : Bits)
  | run (start : Bits)
  | step
  deriving DecidableEq, Repr

/-- What a host command does to an instance (R397). `run` is bounded by STEP_LIMIT, whose value is open. -/
def State.command (c : Command) (s : State) : Result :=
  match c with
  | .reset r m => .next ⟨s.cfg, s.core.resetCommand r m⟩
  | .loadProgram bits address => .next ⟨s.cfg, s.core.loadProgram bits address⟩
  | .run start => runWith Config.stepLimit start s
  | .step => Sys2Proof.Machine.step s

end Sys2Proof.Machine
end

