-- ==== Sys2Proof/Machine/Assembler.lean ====
section
/-! DEFINITION. The two-pass assembler `compile` (30_encoding.md R120 to R135). It is a host-side function of the
source text and the instance's constants: it reads and writes no CORE state (60_exceptions.md R355). -/

namespace Sys2Proof.Machine

/-- ASCII text as its characters. -/
abbrev Text := List Char

/-- Assembly-time errors (60_exceptions.md R353), each with the number of its source line, counted from 1
(DESIGN CHOICE, unsafe only for a claim about a line number: log entry 12; the texts they carry: log entry 14). -/
inductive AsmError where
  /-- `ASM_UNKNOWN_INSTR`: the key is not in the table (R127). -/
  | unknownInstr (line : Nat) (key : Text)
  /-- `ASM_BAD_SIGIL`: the operand text has no sigil and is no label identifier (R125). -/
  | badSigil (line : Nat) (operand : Text)
  /-- `ASM_UNDEF_LABEL` (R126). -/
  | undefLabel (line : Nat) (name : Text)
  /-- `ASM_BAD_LITERAL`: the text after the sigil is no literal (R131). -/
  | badLiteral (line : Nat) (text : Text)
  /-- `ASM_RANGE`: outside `-2^(W-1) .. 2^W - 1` (R130). -/
  | range (line : Nat) (value : Int)
  deriving DecidableEq, Repr

/-! ### Characters, trimming, splitting -/

/-- A space or a tab (R120). -/
def isBlank (c : Char) : Bool := c == ' ' || c == '\t'

/-- `[0-9]`. -/
def isDigit (c : Char) : Bool := decide ('0'.toNat ≤ c.toNat ∧ c.toNat ≤ '9'.toNat)

/-- `[A-Za-z]`. -/
def isLetter (c : Char) : Bool :=
  decide ('A'.toNat ≤ c.toNat ∧ c.toNat ≤ 'Z'.toNat) || decide ('a'.toNat ≤ c.toNat ∧ c.toNat ≤ 'z'.toNat)

/-- `\w`: a letter, digit or underscore (R122). -/
def isWord (c : Char) : Bool := isLetter c || isDigit c || c == '_'

/-- A label identifier, `[A-Za-z.][\w]*` (R122, R125). -/
def isIdent : Text → Bool
  | [] => false
  | c :: cs => (isLetter c || c == '.') && cs.all isWord

/-- Trim leading and trailing spaces and tabs (R120). -/
def trim (t : Text) : Text := ((t.dropWhile isBlank).reverse.dropWhile isBlank).reverse

/-- Split at every separator character; a text without one is one part. -/
def splitOnChar (sep : Char) : Text → List Text
  | [] => [[]]
  | c :: cs =>
    match splitOnChar sep cs with
    | [] => [[c]]
    | part :: parts => if c == sep then [] :: part :: parts else (c :: part) :: parts

/-! ### Literals -/

/-- The value of a digit in base 16, if it is one. -/
def hexDigit (c : Char) : Option Nat :=
  if isDigit c then some (c.toNat - '0'.toNat)
  else if 'a'.toNat ≤ c.toNat ∧ c.toNat ≤ 'f'.toNat then some (c.toNat - 'a'.toNat + 10)
  else if 'A'.toNat ≤ c.toNat ∧ c.toNat ≤ 'F'.toNat then some (c.toNat - 'A'.toNat + 10)
  else none

/-- The value of a digit in a base of at most 16, if it is one. -/
def digitIn (base : Nat) (c : Char) : Option Nat :=
  match hexDigit c with
  | some d => if d < base then some d else none
  | none => none

/-- The value of digits read on from `acc`. -/
def digitsFrom (base : Nat) : Nat → Text → Option Nat
  | acc, [] => some acc
  | acc, c :: cs =>
    match digitIn base c with
    | some d => digitsFrom base (base * acc + d) cs
    | none => none

/-- One or more digits of a base. -/
def parseDigits (base : Nat) : Text → Option Nat
  | [] => none
  | c :: cs => digitsFrom base 0 (c :: cs)

/-- A literal (R131): `-?[0-9]+`, `$[0-9A-Fa-f]+` or `b[01]+`. -/
def parseLiteral : Text → Option Int
  | '-' :: ds => (parseDigits 10 ds).map (fun n => -(n : Int))
  | '$' :: ds => (parseDigits 16 ds).map Int.ofNat
  | 'b' :: ds => (parseDigits 2 ds).map Int.ofNat
  | ds => (parseDigits 10 ds).map Int.ofNat

/-! ### Pass 1: labels and the queue -/

/-- The name a trimmed line declares, if the line is a label: an identifier and a colon (R122). -/
def labelOf (line : Text) : Option Text :=
  match line.reverse with
  | ':' :: rest => if isIdent rest.reverse then some rest.reverse else none
  | _ => none

/-- What pass 1 makes of the lines: the labels with their instruction indexes, in the order of declaration, and
the queued instructions with their line numbers. -/
structure Queue where
  labels : List (Text × Nat)
  instrs : List (Nat × Text)
  deriving DecidableEq, Repr

/-- Pass 1 (R122, R123) over the lines from line number `line` on, `count` instructions being queued already. -/
def pass1 : List Text → Nat → Nat → Queue
  | [], _, _ => ⟨[], []⟩
  | raw :: rest, line, count =>
    let t := trim raw
    if t.isEmpty || t.head? == some ';' then pass1 rest (line + 1) count
    else
      match labelOf t with
      | some name =>
        let q := pass1 rest (line + 1) count
        ⟨(name, count) :: q.labels, q.instrs⟩
      | none =>
        let q := pass1 rest (line + 1) (count + 1)
        ⟨q.labels, (line, t) :: q.instrs⟩

/-- The value of a label: its last declaration (R124). -/
def lookupLabel (labels : List (Text × Nat)) (name : Text) : Option Nat :=
  (labels.reverse.find? (fun e => e.1 == name)).map (·.2)

/-! ### Pass 2: one instruction -/

/-- An operand before it is encoded: a resolved displacement or the literal text after the sigil. -/
inductive OperandText where
  | displacement (value : Int)
  | literal (text : Text)
  deriving DecidableEq, Repr

/-- A token after `!` or without a sigil (R126): a label if one has that name, else a literal, else an undefined
label if it is an identifier. -/
def resolveLabel (labels : List (Text × Nat)) (index line : Nat) (token : Text) : Except AsmError OperandText :=
  match lookupLabel labels token with
  | some target => .ok (.displacement ((target : Int) - index))
  | none =>
    if isIdent token && (parseLiteral token).isNone then .error (.undefLabel line token)
    else .ok (.literal token)

/-- The sigil and the operand of an operand text (R125, R126). -/
def parseOperand (labels : List (Text × Nat)) (index line : Nat) (t : Text) :
    Except AsmError (Char × OperandText) :=
  match t with
  | [] => .error (.badSigil line [])
  | c :: rest =>
    if c == '!' then (resolveLabel labels index line rest).map (fun o => ('!', o))
    else if c == '%' || c == '@' || c == '#' then .ok (c, .literal rest)
    else if isIdent t then (resolveLabel labels index line t).map (fun o => ('!', o))
    else .error (.badSigil line t)

/-- All operands of an instruction, left to right, up to the first error. -/
def parseOperands (labels : List (Text × Nat)) (index line : Nat) :
    List Text → Except AsmError (List (Char × OperandText))
  | [] => .ok []
  | t :: rest =>
    match parseOperand labels index line t with
    | .error e => .error e
    | .ok o => (parseOperands labels index line rest).map (fun os => o :: os)

/-- The mnemonic and the operand texts of a trimmed instruction line (R121). -/
def splitInstr (t : Text) : Text × List Text :=
  let mnemonic := t.takeWhile (fun c => !isBlank c)
  let rest := trim (t.dropWhile (fun c => !isBlank c))
  (mnemonic, if rest.isEmpty then [] else (splitOnChar ',' rest).map trim)

/-- Key lookup (R127): the variant of a key with that many operands, whose opcode fits the width (00_scope.md
R9). -/
def lookupKey (cfg : Config) (key : Text) (operands : Nat) : Option Variant :=
  match keyTable.find? (fun e => e.1.toList == key) with
  | some e => if cfg.opcode e.2 < 2 ^ cfg.width ∧ e.2.arity = operands then some e.2 else none
  | none => none

/-- Literal or displacement to cell (R130, 41_alu.md R190). -/
def valueToCell (cfg : Config) (line : Nat) (k : Int) : Except AsmError (Byte cfg.width) :=
  if -(2 ^ (cfg.width - 1) : Int) ≤ k ∧ k ≤ 2 ^ cfg.width - 1 then
    match intToBits k cfg.width with
    | some v => .ok v
    | none => .error (.range line k)
  else .error (.range line k)

/-- The cell of an operand (R130, R131). -/
def operandToCell (cfg : Config) (line : Nat) : OperandText → Except AsmError (Byte cfg.width)
  | .displacement k => valueToCell cfg line k
  | .literal t =>
    match parseLiteral t with
    | some k => valueToCell cfg line k
    | none => .error (.badLiteral line t)

/-- The cells of the operands, left to right, up to the first error. -/
def operandCells (cfg : Config) (line : Nat) :
    List (Char × OperandText) → Except AsmError (List (Byte cfg.width))
  | [] => .ok []
  | o :: rest =>
    match operandToCell cfg line o.2 with
    | .error e => .error e
    | .ok v => (operandCells cfg line rest).map (fun vs => v :: vs)

/-- Pass 2 for one queued instruction (R125 to R129): operands and labels, then the key, then the literals. The
order is a DESIGN CHOICE, unsafe only for which of several errors of a line is reported: log entry 13. -/
def assembleInstr (cfg : Config) (labels : List (Text × Nat)) (index line : Nat) (t : Text) :
    Except AsmError Instr :=
  match parseOperands labels index line (splitInstr t).2 with
  | .error e => .error e
  | .ok os =>
    let key := (splitInstr t).1 ++ os.map (·.1)
    match lookupKey cfg key os.length with
    | none => .error (.unknownInstr line key)
    | some v =>
      match operandCells cfg line os with
      | .error e => .error e
      | .ok cells => .ok (v.instr ((cells[0]?.getD 0).toNat) ((cells[1]?.getD 0).toNat))

/-- Pass 2 over the queue from instruction index `index` on; it stops at the first error (R132). -/
def pass2 (cfg : Config) (labels : List (Text × Nat)) :
    List (Nat × Text) → Nat → Except AsmError (List Instr)
  | [], _ => .ok []
  | q :: rest, index =>
    match assembleInstr cfg labels index q.1 q.2 with
    | .error e => .error e
    | .ok i => (pass2 cfg labels rest (index + 1)).map (fun is => i :: is)

/-- The 3W-bit stream word of an instruction, most significant bit first (R100, R129). -/
def encodeBits (cfg : Config) (i : Instr) : Bits := (encode cfg i).flatMap Byte.toBits

/-- The binary of a program: its stream words in order (R129). -/
def programBits (cfg : Config) (is : List Instr) : Bits := is.flatMap (encodeBits cfg)

/-- The instructions of a source text, or the first error (R120 to R132). -/
def assemble (cfg : Config) (text : Text) : Except AsmError (List Instr) :=
  let q := pass1 (splitOnChar '\n' text) 1 0
  pass2 cfg q.labels q.instrs 0

/-- `compile(programText) -> bits` (R120, R129, R132): the bits, or one error and no bits. -/
def compile (cfg : Config) (text : Text) : Except AsmError Bits :=
  (assemble cfg text).map (programBits cfg)

/-- "Load-from-text" (70_reset_and_hazards.md R393): `loadProgram` of what `compile` answers, only after it succeeds. -/
def loadText {cfg : Config} (text : Text) (address : Bits) (s : CoreState cfg) : Except AsmError (CoreState cfg) :=
  (compile cfg text).map (fun bits => s.loadProgram bits address)

end Sys2Proof.Machine
end

