-- ==== Sys2Proof/Safety.lean ====
section
/-! DEFINITION. What claims about a run are said in: the error-free premise of 60_exceptions.md R372, the output of
10_state.md R45, the two ends of a run (40_execution_cycle.md R174), what an instance's state always satisfies, and
the states an instance can reach. -/

namespace Sys2Proof.Machine

namespace CoreState

variable {cfg : Config}

/-- No error was ever reported (10_state.md R44, 60_exceptions.md R372): the premise of a claim that does not rest
on the results of failed accesses. -/
def errorFree (s : CoreState cfg) : Prop := s.errors = []

/-- The byte an event outputs, if it is an `OUT`. -/
def outByte {w : Nat} : Event w → Option (Byte w)
  | .out v => some v
  | _ => none

/-- The error an event reports, if it is an `error`. -/
def reportedError {w : Nat} : Event w → Option (ErrorRecord w)
  | .error e => some e
  | _ => none

/-- The output of a program: the subsequence of its `OUT` events (10_state.md R45). -/
def outputs (s : CoreState cfg) : List (Byte cfg.width) := s.events.filterMap outByte

/-- A run ended by the step limit (40_execution_cycle.md R174): the last entry of the error log is ERR_LOOP. -/
def endedByLimit (s : CoreState cfg) : Prop := ∃ pc, s.errors.getLast? = some (.errLoop pc)

/-! ### The vocabulary of the statements about one instruction -/

/-- The value of a failed or successful register read (40_execution_cycle.md R163): 0^W past the last register. -/
def regValue (s : CoreState cfg) (c : Operand) : Byte cfg.width :=
  if c < cfg.regCount then s.reg.read c else 0

/-- The value of a failed or successful RAM read (R165): 0^W past the last cell. -/
def ramValue (s : CoreState cfg) (c : Operand) : Byte cfg.width :=
  if c < cfg.ramCells then s.ram.read c else 0

/-- The errors an access to register `c` reports (R163, R164). -/
def regFault (cfg : Config) (c : Operand) : List (ErrorRecord cfg.width) :=
  if c < cfg.regCount then [] else [.errReg (cell cfg c)]

/-- The errors an access to RAM cell `c` reports (R165, R166). -/
def ramFault (cfg : Config) (c : Operand) : List (ErrorRecord cfg.width) :=
  if c < cfg.ramCells then [] else [.errAddr (cell cfg c)]

/-- `s` with these errors reported, in order, and nothing else changed (60_exceptions.md R352). -/
def report (s : CoreState cfg) (errs : List (ErrorRecord cfg.width)) : CoreState cfg :=
  { s with errors := s.errors ++ errs, events := s.events ++ errs.map .error }

/-- `new` is `old` with the value `v` in cell `c`, if `c` is below the capacity `n`, and no other cell
changed: every cell read through the Memory's own `read` (20_memory.md R73, R75). -/
def Stored {w : Nat} (n : Nat) (old new : Memory w) (c : Nat) (v : Nat) : Prop :=
  ∀ k, (new.read k).toNat = if k = c ∧ c < n then v else (old.read k).toNat

/-- Executing `i` completes: it reports `errs`, stores `value` in register `a` (if there is such a register),
sets the flags to `c`, `z` and the top bit of `value`, and advances pc by 3. All else is unchanged: the record
update names no RAM, ir, engine or step counter. -/
def ArithCompletes (i : Instr) (s : CoreState cfg) (a : Operand) (errs : List (ErrorRecord cfg.width))
    (value : Nat) (c z : Bool) : Prop :=
  ∃ reg' : Memory cfg.width,
    exec i ⟨cfg, s⟩ = .next ⟨cfg,
      { s.report errs with
        reg := reg', carry := c, zero := z, sign := decide (2 ^ (cfg.width - 1) ≤ value)
        pc := bitsW cfg.width (s.pc.toNat + 3) }⟩ ∧
    Stored cfg.regCount s.reg reg' a value

/-- `sint` of a W-bit operand cell, from its `uint` (00_scope.md R11). -/
def operandInt (cfg : Config) (a : Operand) : Int :=
  if 2 ^ (cfg.width - 1) ≤ a then (a : Int) - (2 ^ cfg.width : Nat) else a

/-- What the state of every instance satisfies: both Memories in canonical form and within their capacity and
address space (20_memory.md R70, R75, R77, R78), and an error log that holds exactly the reported errors of the event
log, in order (60_exceptions.md R352). -/
structure Inv (s : CoreState cfg) : Prop where
  reg_wf : s.reg.wf = true
  ram_wf : s.ram.wf = true
  reg_within : s.reg.within (min cfg.regCount (2 ^ cfg.width)) = true
  ram_within : s.ram.within (min cfg.ramCells (2 ^ cfg.width)) = true
  errors_reported : s.events.filterMap reportedError = s.errors

end CoreState

/-- The instances that exist: a fresh construction, and what host commands make of an instance (R397). -/
inductive Reachable (cfg : Config) : CoreState cfg → Prop
  | construct : Reachable cfg (CoreState.initial cfg)
  | command (c : Command) {s t : CoreState cfg} :
      Reachable cfg s → State.command c ⟨cfg, s⟩ = .next ⟨cfg, t⟩ → Reachable cfg t

end Sys2Proof.Machine
end

