-- ==== Sys2Proof/Certificates/Slice0/Obligations.lean ====
section
/-! DEFINITION. The statements about the model, for the provers. `cfg` ranges over every configuration of the hardware:
every width, register count, RAM size, OPCODE_MAP and setting of the two switches. Where a statement gives the next
state as a record update `{ s with … }`, every field it does not name is unchanged: that is its frame. -/

open Sys2Proof Sys2Proof.Machine Sys2Proof.Machine.CoreState

/-! ### Encoding and decoding -/

/-- Decoding an encoded well-formed instruction gives it back, up to the alias keys, with every operand at every value
a W-bit cell admits, under every OPCODE_MAP (30_encoding.md sections 1 and 4); an operand it has not reads as 0. -/
def Obligations.DecodeEncodeAgree : Prop :=
  ∀ (cfg : Config) (i : Instr) (rest : List (Byte cfg.width)), i.WellFormed cfg →
    ∃ d : Decoded cfg,
      decode cfg (encode cfg i ++ rest) = .ok (d, rest) ∧ d.instr = i.canonical ∧
      d.operandA.toNat = i.operandA ∧ d.operandB.toNat = i.operandB

/-- Whatever decodes is well formed and its own canonical key; both operands are read as their cell values, so what it
decodes to has exactly the three cells it was decoded from; and encoding the instruction gives back the opcode cell and
the operand cells its arity uses, with zero cells for the others. -/
def Obligations.EncodeDecodeAgree : Prop :=
  ∀ (cfg : Config) (opc a b : Byte cfg.width) (rest rest' : List (Byte cfg.width)) (d : Decoded cfg),
    decode cfg (opc :: a :: b :: rest) = .ok (d, rest') →
      rest' = rest ∧ d.operandA = a ∧ d.operandB = b ∧ d.cells = [opc, a, b] ∧
      d.instr.WellFormed cfg ∧ d.instr.canonical = d.instr ∧
      encode cfg d.instr =
        [opc, if 1 ≤ d.instr.variant.arity then a else 0, if d.instr.variant.arity = 2 then b else 0]

/-- A sanity statement: a few words written out from R112's table, at W = 8, read as the decoder reads them. -/
def Obligations.SampleWordsDecode : Prop :=
  decodeTableWord 24 0x020005 = some (.movRI 0 5) ∧ decodeTableWord 24 0x060001 = some (.addRR 0 1) ∧
  decodeTableWord 24 0x15FF00 = some (.jmpD 255) ∧ decodeTableWord 24 0x230080 = some (.outM 0) ∧
  decodeTableWord 24 0x000000 = some .hlt ∧ decodeTableWord 24 0x250000 = none

/-- R101: the opcode cell selects the unique variant whose OPCODE_MAP value is its `uint`, or is an unknown opcode: the
decoder refuses exactly the values that OPCODE_MAP assigns to no variant, whatever the operand cells hold. -/
def Obligations.DecodeRefusesExactlyUnassigned : Prop :=
  ∀ (cfg : Config) (opc a b : Byte cfg.width) (rest : List (Byte cfg.width)),
    ((∀ v : Variant, cfg.opcode v ≠ opc.toNat) ∧
      decode cfg (opc :: a :: b :: rest) = .error (.unknownOpcode opc.toNat)) ∨
    (∃ v : Variant, cfg.opcode v = opc.toNat ∧ (∀ u : Variant, cfg.opcode u = opc.toNat → u = v) ∧
      decode cfg (opc :: a :: b :: rest) = .ok (⟨v.instr a.toNat b.toNat, a, b⟩, rest))

/-- R111: under every OPCODE_MAP two keys of the table share an opcode exactly when they are the same key or one of
the four alias pairs; each key is one entry; `JC` does not alias `JEQ`, and there is no `JNGTR`. -/
def Obligations.OnlyAliasPairsShareOpcodes : Prop :=
  (∀ (cfg : Config) (e f : String × Variant), e ∈ keyTable → f ∈ keyTable →
    (cfg.opcode e.2 = cfg.opcode f.2 ↔
      e.1 = f.1 ∨
      (e.1, f.1) ∈ [("JEQ%", "JZ%"), ("JEQ!", "JZ!"), ("JNE%", "JNZ%"), ("JNE!", "JNZ!")] ∨
      (f.1, e.1) ∈ [("JEQ%", "JZ%"), ("JEQ!", "JZ!"), ("JNE%", "JNZ%"), ("JNE!", "JNZ!")])) ∧
  (keyTable.map (·.1)).Nodup ∧ keyTable.length = 41 ∧
  (∀ k ∈ ["JC%", "JC!", "JEQ%", "JEQ!"], k ∈ keyTable.map (·.1)) ∧
  "JNGTR%" ∉ keyTable.map (·.1) ∧ "JNGTR!" ∉ keyTable.map (·.1)

/-- The stream word of a well-formed instruction is 3W bits long, and cut into Bytes it decodes to the instruction. -/
def Obligations.StreamWordDecodes : Prop :=
  ∀ (cfg : Config) (i : Instr), i.WellFormed cfg →
    (encodeBits cfg i).length = 3 * cfg.width ∧
    ∃ d : Decoded cfg,
      decode cfg ((bytesOf cfg.width 3 (encodeBits cfg i)).map (Bits.toByte cfg.width)) = .ok (d, []) ∧
      d.instr = i.canonical

/-! ### One step -/

/-- A step runs the decoded instruction: where the three cells at pc lie in RAM and decode to `d`, the step is `exec` of
its instruction at the state whose ir holds the opcode cell, followed by the `step(pc)` event with the new pc. -/
def Obligations.StepRunsDecodedInstruction : Prop :=
  ∀ (cfg : Config) (s : CoreState cfg) (d : Decoded cfg) (rest : List (Byte cfg.width)),
    (∀ k, k ≤ 2 → (s.operandAddr k).toNat < cfg.ramCells) →
    decode cfg [s.ram.read (s.operandAddr 0).toNat, s.ram.read (s.operandAddr 1).toNat,
      s.ram.read (s.operandAddr 2).toNat] = .ok (d, rest) →
    ∃ t : CoreState cfg,
      exec d.instr ⟨cfg, { s with ir := s.ram.read s.pc.toNat }⟩ = .next ⟨cfg, t⟩ ∧
      step ⟨cfg, s⟩ = .next ⟨cfg, { t with events := t.events ++ [.step t.pc] }⟩

/-- R357: where the fetched opcode value (0^W, with ERR_ADDR, outside RAM) is one that OPCODE_MAP does not assign, the
step raises ERR_OPCODE with the opcode cell and the pc, and then only advances pc by 3 (ir is the fetch's, the last event
is the step's own). -/
def Obligations.UnknownOpcodeOnlyAdvances : Prop :=
  ∀ (cfg : Config) (s : CoreState cfg),
    (∀ v : Variant, cfg.opcode v ≠ (s.ramValue s.pc.toNat).toNat) →
    let errs := ramFault cfg s.pc.toNat ++ [.errOpcode (s.ramValue s.pc.toNat) s.pc]
    step ⟨cfg, s⟩ = .next ⟨cfg,
      { s with
        ir := s.ramValue s.pc.toNat
        pc := bitsW cfg.width (s.pc.toNat + 3)
        errors := s.errors ++ errs
        events := s.events ++ errs.map .error ++ [.step (bitsW cfg.width (s.pc.toNat + 3))] }⟩

/-- A fetch outside RAM reports ERR_ADDR of the pc and reads the zero cell; where opcode 0 is HLT, as under
DEFAULT_OPCODE_MAP, the step halts the engine. -/
def Obligations.FetchOutsideRamHalts : Prop :=
  ∀ (cfg : Config) (s : CoreState cfg), cfg.ramCells ≤ s.pc.toNat → cfg.opcode .hlt = 0 →
    step ⟨cfg, s⟩ = .next ⟨cfg,
      { s with
        ir := 0
        engine := .halted
        pc := bitsW cfg.width (s.pc.toNat + 3)
        errors := s.errors ++ [.errAddr s.pc]
        events := s.events ++ [.error (.errAddr s.pc), .step (bitsW cfg.width (s.pc.toNat + 3))] }⟩

/-- R162: the arity is 2 for MOV, ADD, SUB, MUL and CMP, 1 for INC, DEC, the jumps and OUT, 0 for HLT and NOP, and a step
fetches operand cell A for an arity of at least 1 and B for an arity of 2, as RAM reads: each cell outside RAM is reported,
opcode first, then A, then B, and the instruction then runs with 0^W for it, its own errors following. -/
def Obligations.OperandFetchFollowsArity : Prop :=
  (∀ v : Variant, v.arity =
    if v ∈ [Variant.hlt, .nop] then 0
    else if v ∈ [Variant.movRR, .movRI, .movRM, .movMR, .movMI, .addRR, .addRI, .addRM, .subRR, .subRI, .subRM, .mulRR,
      .mulRI, .mulRM, .cmpRR, .cmpRI, .cmpRM] then 2
    else 1) ∧
  ∀ (cfg : Config) (s : CoreState cfg) (v : Variant),
    cfg.opcode v = (s.ramValue s.pc.toNat).toNat →
    ∃ t : CoreState cfg,
      exec
        (v.instr (s.ramValue (s.operandAddr 1).toNat).toNat (s.ramValue (s.operandAddr 2).toNat).toNat)
        ⟨cfg,
          { s.report
              (ramFault cfg s.pc.toNat ++
                (if 1 ≤ v.arity then ramFault cfg (s.operandAddr 1).toNat else []) ++
                (if v.arity = 2 then ramFault cfg (s.operandAddr 2).toNat else [])) with
            ir := s.ramValue s.pc.toNat }⟩ = .next ⟨cfg, t⟩ ∧
      step ⟨cfg, s⟩ = .next ⟨cfg, { t with events := t.events ++ [.step t.pc] }⟩

/-- No instruction and no step ever stops: `exec` and `step` answer a next state of the same instance from every
state, whatever the operands. -/
def Obligations.EveryStepCompletes : Prop :=
  ∀ (cfg : Config) (s : CoreState cfg),
    (∀ i : Instr, ∃ t : CoreState cfg, exec i ⟨cfg, s⟩ = .next ⟨cfg, t⟩) ∧
    ∃ t : CoreState cfg, step ⟨cfg, s⟩ = .next ⟨cfg, t⟩

/-- R169: every step ends by emitting `step(pc)` with the new pc, and before it come only the `error` and `OUT` events
of the step; the errors among them are what the step appends to the error log. -/
def Obligations.StepEndsWithNotification : Prop :=
  ∀ (cfg : Config) (s t : CoreState cfg), step ⟨cfg, s⟩ = .next ⟨cfg, t⟩ →
    ∃ mid : List (Event cfg.width),
      t.events = s.events ++ mid ++ [.step t.pc] ∧
      (∀ e ∈ mid, (∃ r, e = .error r) ∨ (∃ v, e = .out v)) ∧
      t.errors = s.errors ++ mid.filterMap reportedError

/-- R395: the host's `step` executes exactly one step in any engine state, and neither reads nor changes `steps` or the
engine state, except that a HLT sets `halted`. More: nothing a step does depends on ir, the engine state, the step counter
or the two logs, the state no instruction reads. -/
def Obligations.StepIgnoresHiddenState : Prop :=
  ∀ (cfg : Config) (s : CoreState cfg) (ir : Byte cfg.width) (e : Engine) (n : Nat)
    (errs : List (ErrorRecord cfg.width)) (evs : List (Event cfg.width)),
    ∃ (t : CoreState cfg) (newErrs : List (ErrorRecord cfg.width)) (newEvs : List (Event cfg.width)),
      State.command .step ⟨cfg, s⟩ = .next ⟨cfg, t⟩ ∧
      step ⟨cfg, s⟩ = .next ⟨cfg, t⟩ ∧
      t.steps = s.steps ∧
      t.engine = (if decodeOpcode cfg t.ir.toNat = some .hlt then .halted else s.engine) ∧
      t.errors = s.errors ++ newErrs ∧ t.events = s.events ++ newEvs ∧
      step ⟨cfg, { s with ir := ir, engine := e, steps := n, errors := errs, events := evs }⟩ = .next ⟨cfg,
        { t with
          engine := if decodeOpcode cfg t.ir.toNat = some .hlt then .halted else e
          steps := n
          errors := errs ++ newErrs
          events := evs ++ newEvs }⟩

/-- A step changes at most the register or the RAM cell that its fetched operand cell A names: for the variants whose
destination is a register, at most register A, if there is one; for `MOV@%` and `MOV@#`, at most RAM cell A, if there is
one; for any other opcode, assigned or not, none. Every other register and cell reads as before. -/
def Obligations.StepWritesAtMostOneCell : Prop :=
  ∀ (cfg : Config) (s t : CoreState cfg), s.Inv → step ⟨cfg, s⟩ = .next ⟨cfg, t⟩ →
    let opc := (s.ramValue s.pc.toNat).toNat
    let a := (s.ramValue (s.operandAddr 1).toNat).toNat
    let toReg := [Variant.movRR, .movRI, .movRM, .addRR, .addRI, .addRM, .subRR, .subRI, .subRM, .mulRR, .mulRI,
      .mulRM, .incR, .decR]
    let toRam := [Variant.movMR, .movMI]
    (∀ v ∈ toReg, cfg.opcode v = opc →
      (∀ k, k ≠ a ∨ cfg.regCount ≤ k → t.reg.read k = s.reg.read k) ∧ ∀ k, t.ram.read k = s.ram.read k) ∧
    (∀ v ∈ toRam, cfg.opcode v = opc →
      (∀ k, t.reg.read k = s.reg.read k) ∧ ∀ k, k ≠ a ∨ cfg.ramCells ≤ k → t.ram.read k = s.ram.read k) ∧
    ((∀ v ∈ toReg ++ toRam, cfg.opcode v ≠ opc) →
      (∀ k, t.reg.read k = s.reg.read k) ∧ ∀ k, t.ram.read k = s.ram.read k)

/-- Where RAM covers the whole address space, no step reports ERR_ADDR. -/
def Obligations.FullRamNeverReportsAddress : Prop :=
  ∀ (cfg : Config) (s t : CoreState cfg), 2 ^ cfg.width ≤ cfg.ramCells → step ⟨cfg, s⟩ = .next ⟨cfg, t⟩ →
    ∀ c, ErrorRecord.errAddr c ∈ t.errors → ErrorRecord.errAddr c ∈ s.errors

/-! ### The Memory component -/

/-- R73, R74: an address or a value longer than the cell width is refused; otherwise a write stores the value left-padded
with zeros in its one cell, where it is read back, every other cell reads as before, and the canonical form is kept; after
a clear every cell reads zero. -/
def Obligations.MemoryReadsWhatWasWritten : Prop :=
  ∀ (w : Nat) (m : Memory w) (a v : Bits), m.wf = true →
    (w < a.length → m.readBits a = .error (.hostAddrFormat a) ∧ m.writeBits a v = .error (.hostAddrFormat a)) ∧
    (a.length ≤ w → w < v.length → m.writeBits a v = .error (.hostCapacity v)) ∧
    (a.length ≤ w → v.length ≤ w →
      ∃ m' : Memory w, m.writeBits a v = .ok m' ∧ m'.wf = true ∧
        ∀ b : Bits, b.length ≤ w →
          ∃ old new : Byte w, m.readBits b = .ok old ∧ m'.readBits b = .ok new ∧
            new.toNat = if b.uint = a.uint then v.uint else old.toNat) ∧
    (a.length ≤ w → m.clear.readBits a = .ok 0)

/-! ### Data movement -/

/-- MOV to a register, for every operand value: `MOV%%`, `MOV%#`, `MOV%@` report the errors of the source, then of the
destination, and register A (if it exists) holds the source's value. -/
def Obligations.MovToRegisterCompletes : Prop :=
  ∀ (cfg : Config) (s : CoreState cfg) (a b : Operand), s.reg.wf = true →
    a < 2 ^ cfg.width → b < 2 ^ cfg.width →
    let moves (i : Instr) (errs : List (ErrorRecord cfg.width)) (v : Nat) : Prop :=
      ∃ reg' : Memory cfg.width,
        exec i ⟨cfg, s⟩ = .next ⟨cfg,
          { s.report errs with reg := reg', pc := bitsW cfg.width (s.pc.toNat + 3) }⟩ ∧
        Stored cfg.regCount s.reg reg' a v
    moves (.movRR a b) (regFault cfg b ++ regFault cfg a) (s.regValue b).toNat ∧
    moves (.movRI a b) (regFault cfg a) b ∧
    moves (.movRM a b) (ramFault cfg b ++ regFault cfg a) (s.ramValue b).toNat

/-- MOV to memory, for every operand value: `MOV@%`, `MOV@#` store to the one cell whose address is operand A, and every
other cell reads as before; an address of M or more stores nothing and is reported. -/
def Obligations.MovToMemoryCompletes : Prop :=
  ∀ (cfg : Config) (s : CoreState cfg) (a b : Operand), s.ram.wf = true →
    a < 2 ^ cfg.width → b < 2 ^ cfg.width →
    let stores (i : Instr) (errs : List (ErrorRecord cfg.width)) (v : Nat) : Prop :=
      ∃ ram' : Memory cfg.width,
        exec i ⟨cfg, s⟩ = .next ⟨cfg,
          { s.report errs with ram := ram', pc := bitsW cfg.width (s.pc.toNat + 3) }⟩ ∧
        Stored cfg.ramCells s.ram ram' a v
    stores (.movMR a b) (regFault cfg b ++ ramFault cfg a) (s.regValue b).toNat ∧
    stores (.movMI a b) (ramFault cfg a) b

/-! ### Arithmetic and comparison -/

/-- ADD in its three forms, for every operand value: the sum mod 2^W, CARRY the carry out, ZERO and SIGN of the W-bit
result. -/
def Obligations.AddCompletes : Prop :=
  ∀ (cfg : Config) (s : CoreState cfg) (a b : Operand), s.reg.wf = true →
    a < 2 ^ cfg.width → b < 2 ^ cfg.width →
    let adds (i : Instr) (q : Nat) (errs : List (ErrorRecord cfg.width)) : Prop :=
      let p := (s.regValue a).toNat
      ArithCompletes i s a (regFault cfg a ++ errs ++ regFault cfg a) ((p + q) % 2 ^ cfg.width)
        (decide (2 ^ cfg.width ≤ p + q)) (decide ((p + q) % 2 ^ cfg.width = 0))
    adds (.addRR a b) (s.regValue b).toNat (regFault cfg b) ∧ adds (.addRI a b) b [] ∧
    adds (.addRM a b) (s.ramValue b).toNat (ramFault cfg b)

/-- SUB in its three forms, for every operand value: the difference mod 2^W, CARRY "no unsigned borrow" or, for a zero
subtrahend, SUB_CARRY_B_ZERO. -/
def Obligations.SubCompletes : Prop :=
  ∀ (cfg : Config) (s : CoreState cfg) (a b : Operand), s.reg.wf = true →
    a < 2 ^ cfg.width → b < 2 ^ cfg.width →
    let subs (i : Instr) (q : Nat) (errs : List (ErrorRecord cfg.width)) : Prop :=
      let p := (s.regValue a).toNat
      ArithCompletes i s a (regFault cfg a ++ errs ++ regFault cfg a)
        ((p + (2 ^ cfg.width - q)) % 2 ^ cfg.width)
        (if q = 0 then cfg.subCarryBZero else decide (q ≤ p)) (decide (p = q))
    subs (.subRR a b) (s.regValue b).toNat (regFault cfg b) ∧ subs (.subRI a b) b [] ∧
    subs (.subRM a b) (s.ramValue b).toNat (ramFault cfg b)

/-- MUL in its three forms, for every operand value: the low W bits of the signed product, CARRY the magnitude product
at 2^W or more, ZERO "either operand was zero". -/
def Obligations.MulCompletes : Prop :=
  ∀ (cfg : Config) (s : CoreState cfg) (a b : Operand), s.reg.wf = true →
    a < 2 ^ cfg.width → b < 2 ^ cfg.width →
    let muls (i : Instr) (q : Int) (errs : List (ErrorRecord cfg.width)) : Prop :=
      let p := (s.regValue a).toInt
      ArithCompletes i s a (regFault cfg a ++ errs ++ regFault cfg a)
        (p * q % (2 ^ cfg.width : Nat)).toNat
        (decide (2 ^ cfg.width ≤ p.natAbs * q.natAbs)) (decide (p = 0 ∨ q = 0))
    muls (.mulRR a b) (s.regValue b).toInt (regFault cfg b) ∧ muls (.mulRI a b) (operandInt cfg b) [] ∧
    muls (.mulRM a b) (s.ramValue b).toInt (ramFault cfg b)

/-- INC and DEC, for every operand value: C after INC says the register was all ones, after DEC that it was not zero. -/
def Obligations.IncDecComplete : Prop :=
  ∀ (cfg : Config) (s : CoreState cfg) (a : Operand), s.reg.wf = true → a < 2 ^ cfg.width →
    let p := (s.regValue a).toNat
    ArithCompletes (.incR a) s a (regFault cfg a ++ regFault cfg a) ((p + 1) % 2 ^ cfg.width)
      (decide (p = 2 ^ cfg.width - 1)) (decide (p = 2 ^ cfg.width - 1)) ∧
    ArithCompletes (.decR a) s a (regFault cfg a ++ regFault cfg a)
      ((p + (2 ^ cfg.width - 1)) % 2 ^ cfg.width) (decide (p ≠ 0)) (decide (p = 1))

/-- CMP in its three forms, for every operand value: exactly the flags SUB would write, and no register or RAM cell
changes. -/
def Obligations.CmpCompletes : Prop :=
  ∀ (cfg : Config) (s : CoreState cfg) (a b : Operand), a < 2 ^ cfg.width → b < 2 ^ cfg.width →
    let compares (i : Instr) (q : Nat) (errs : List (ErrorRecord cfg.width)) : Prop :=
      let p := (s.regValue a).toNat
      exec i ⟨cfg, s⟩ = .next ⟨cfg,
        { s.report (regFault cfg a ++ errs) with
          carry := if q = 0 then cfg.subCarryBZero else decide (q ≤ p)
          zero := decide (p = q)
          sign := decide (2 ^ (cfg.width - 1) ≤ (p + (2 ^ cfg.width - q)) % 2 ^ cfg.width)
          pc := bitsW cfg.width (s.pc.toNat + 3) }⟩
    compares (.cmpRR a b) (s.regValue b).toNat (regFault cfg b) ∧ compares (.cmpRI a b) b [] ∧
    compares (.cmpRM a b) (s.ramValue b).toNat (ramFault cfg b)

/-- Only ADD, SUB, MUL, INC, DEC and CMP write a flag: the opcode of any other instruction, or an unknown one, leaves C,
Z and S as they were through the whole step. -/
def Obligations.OnlyArithmeticWritesFlags : Prop :=
  ∀ (cfg : Config) (s t : CoreState cfg), step ⟨cfg, s⟩ = .next ⟨cfg, t⟩ →
    (∀ v ∈ [Variant.addRR, .addRI, .addRM, .subRR, .subRI, .subRM, .mulRR, .mulRI, .mulRM, .incR, .decR,
      .cmpRR, .cmpRI, .cmpRM], cfg.opcode v ≠ t.ir.toNat) →
    t.carry = s.carry ∧ t.zero = s.zero ∧ t.sign = s.sign

/-! ### Control flow -/

/-- The `%` jumps, for every operand value, flag setting and CMP_ORDER: the condition of the mnemonic on the flags at the
start; taken, the target is the contents of the register (R292; 0^W and ERR_REG where it does not exist); not taken, the
register is not read and pc advances by 3. Nothing else changes. -/
def Obligations.AbsoluteJumpsComplete : Prop :=
  ∀ (cfg : Config) (s : CoreState cfg) (a : Operand), a < 2 ^ cfg.width →
    let jumps (i : Instr) (cond : Bool) : Prop :=
      exec i ⟨cfg, s⟩ = .next ⟨cfg,
        if cond then { s.report (regFault cfg a) with pc := s.regValue a }
        else { s with pc := bitsW cfg.width (s.pc.toNat + 3) }⟩
    jumps (.jmpR a) true ∧ jumps (.jcR a) s.carry ∧ jumps (.jncR a) (!s.carry) ∧
    jumps (.jeqR a) s.zero ∧ jumps (.jzR a) s.zero ∧ jumps (.jneR a) (!s.zero) ∧ jumps (.jnzR a) (!s.zero) ∧
    jumps (.jgtrR a) (if cfg.cmpOrder = .signedFlags then !s.zero && !s.sign else s.carry && !s.zero) ∧
    jumps (.jlssR a) (if cfg.cmpOrder = .signedFlags then s.sign else !s.carry)

/-- The `!` jumps, for every operand value, flag setting and CMP_ORDER: taken (R291), pc becomes the one W-bit value that is
uint(pc) + 3·sint(A) mod 2^W, the base being the jump's own address; not taken, pc advances by 3. No error, and nothing
else changes. -/
def Obligations.RelativeJumpsComplete : Prop :=
  ∀ (cfg : Config) (s : CoreState cfg) (a : Operand), a < 2 ^ cfg.width →
    ∃ target : Byte cfg.width,
      (target.toNat : Int) = (s.pc.toNat + 3 * operandInt cfg a) % (2 ^ cfg.width : Nat) ∧
      let jumps (i : Instr) (cond : Bool) : Prop :=
        exec i ⟨cfg, s⟩ = .next ⟨cfg,
          { s with pc := if cond then target else bitsW cfg.width (s.pc.toNat + 3) }⟩
      jumps (.jmpD a) true ∧ jumps (.jcD a) s.carry ∧ jumps (.jncD a) (!s.carry) ∧
      jumps (.jeqD a) s.zero ∧ jumps (.jzD a) s.zero ∧ jumps (.jneD a) (!s.zero) ∧ jumps (.jnzD a) (!s.zero) ∧
      jumps (.jgtrD a) (if cfg.cmpOrder = .signedFlags then !s.zero && !s.sign else s.carry && !s.zero) ∧
      jumps (.jlssD a) (if cfg.cmpOrder = .signedFlags then s.sign else !s.carry)

/-- Labels land: a program based at any address, a jump at instruction `index` whose operand cell is the displacement
`label − index` goes to the label's instruction, wherever the two are. -/
def Obligations.LabelDisplacementLands : Prop :=
  ∀ (cfg : Config) (s : CoreState cfg) (base : Nat) (index label : Nat),
    s.pc = bitsW cfg.width (base + 3 * index) →
    exec (.jmpD (bitsW cfg.width ((label : Int) - index)).toNat) ⟨cfg, s⟩ =
      .next ⟨cfg, { s with pc := bitsW cfg.width (base + 3 * label) }⟩

/-- What CMP and then JGTR or JLSS decide. With `unsigned_carry` it is the unsigned order, for a nonzero right operand
or with SUB_CARRY_B_ZERO; with `signed_flags` it is the signed order wherever the signed difference is a W-bit number. -/
def Obligations.CompareThenJumpOrders : Prop :=
  ∀ (w : Nat) (bz : Bool) (p q : Byte w), 1 ≤ w →
    let f := (aluResult (subW bz p q)).flags
    (q ≠ 0 ∨ bz = true →
      Cond.holds .unsignedCarry f .greater = decide (q.toNat < p.toNat) ∧
      Cond.holds .unsignedCarry f .less = decide (p.toNat < q.toNat)) ∧
    (-(2 ^ (w - 1) : Int) ≤ p.toInt - q.toInt ∧ p.toInt - q.toInt < 2 ^ (w - 1) →
      Cond.holds .signedFlags f .greater = decide (q.toInt < p.toInt) ∧
      Cond.holds .signedFlags f .less = decide (p.toInt < q.toInt))

/-! ### Output, halt, no-op -/

/-- OUT in both forms, for every operand value: one `OUT` event carrying the cell's value, after the error event if
there is no such register or cell. Nothing but pc and the logs changes. -/
def Obligations.OutCompletes : Prop :=
  ∀ (cfg : Config) (s : CoreState cfg) (a : Operand), a < 2 ^ cfg.width →
    let outs (i : Instr) (v : Byte cfg.width) (errs : List (ErrorRecord cfg.width)) : Prop :=
      exec i ⟨cfg, s⟩ = .next ⟨cfg,
        { s with
          pc := bitsW cfg.width (s.pc.toNat + 3)
          errors := s.errors ++ errs
          events := s.events ++ errs.map .error ++ [.out v] }⟩
    outs (.outR a) (s.regValue a) (regFault cfg a) ∧ outs (.outM a) (s.ramValue a) (ramFault cfg a)

/-- HLT sets the engine to `halted` and advances pc by 3; NOP only advances pc by 3. -/
def Obligations.HaltAndNopComplete : Prop :=
  ∀ (cfg : Config) (s : CoreState cfg),
    exec .hlt ⟨cfg, s⟩ =
      .next ⟨cfg, { s with engine := .halted, pc := bitsW cfg.width (s.pc.toNat + 3) }⟩ ∧
    exec .nop ⟨cfg, s⟩ = .next ⟨cfg, { s with pc := bitsW cfg.width (s.pc.toNat + 3) }⟩

/-! ### Invariants -/

/-- The construction state of every configuration, and so `State.reset`, satisfies the invariant. -/
def Obligations.InvHoldsAtReset : Prop :=
  (∀ cfg : Config, (CoreState.initial cfg).Inv) ∧ State.reset.core.Inv

/-- Every step keeps the invariant, from every state that satisfies it. -/
def Obligations.StepKeepsInv : Prop :=
  ∀ (cfg : Config) (s t : CoreState cfg), s.Inv → step ⟨cfg, s⟩ = .next ⟨cfg, t⟩ → t.Inv

/-- Every host command keeps the invariant and the configuration: reset, program load with any bits at any address, a
whole run under STEP_LIMIT, whatever it is, and a single step. -/
def Obligations.CommandKeepsInv : Prop :=
  ∀ (cfg : Config) (s : CoreState cfg) (c : Command), s.Inv →
    ∃ t : CoreState cfg, State.command c ⟨cfg, s⟩ = .next ⟨cfg, t⟩ ∧ t.Inv

/-- In every instance that host commands can produce, the Memories are canonical and within their capacity, and the
error log holds exactly the reported errors. -/
def Obligations.ReachableStatesSatisfyInv : Prop :=
  ∀ (cfg : Config) (s : CoreState cfg), Reachable cfg s → s.Inv

/-- R44: every reported error is appended to the error log, and nothing ever removes an entry, including reset: whatever
the command, both logs only grow, and what the error log gains is the errors among the events emitted. -/
def Obligations.LogsOnlyGrow : Prop :=
  ∀ (cfg : Config) (s t : CoreState cfg) (c : Command), State.command c ⟨cfg, s⟩ = .next ⟨cfg, t⟩ →
    ∃ newEvs : List (Event cfg.width),
      t.events = s.events ++ newEvs ∧ t.errors = s.errors ++ newEvs.filterMap reportedError

/-! ### Construction, reset, load, run -/

/-- The width is checked first, then the register count (70_reset_and_hazards.md section 1); a configuration that passes
gives the construction state, everything zero, false or empty and the engine idle, and no host command ever changes the
configuration. That the two checks come before the one of OPCODE_MAP is the model's choice, log entry 8; that a map may
hold a value of 2^W or more is its reading of the spec, log entry 7. -/
def Obligations.ConstructChecks : Prop :=
  ∀ (w r m : Nat) (map : Vector Nat 37) (bz : Bool) (ord : CmpOrder),
    (w < 1 → construct w r m map bz ord = .error (.cfgWidth w)) ∧
    (1 ≤ w → r < 1 → construct w r m map bz ord = .error (.cfgRegs r)) ∧
    (1 ≤ w → 1 ≤ r → map.toList.Nodup →
      ∃ (cfg : Config) (s : CoreState cfg), construct w r m map bz ord = .ok ⟨cfg, s⟩ ∧
        cfg.width = w ∧ cfg.regCount = r ∧ cfg.ramCells = m ∧ cfg.opcodeMap = map ∧
        cfg.subCarryBZero = bz ∧ cfg.cmpOrder = ord ∧
        (∀ k, s.reg.read k = 0 ∧ s.ram.read k = 0) ∧ s.pc = 0 ∧ s.ir = 0 ∧
        s.carry = false ∧ s.zero = false ∧ s.sign = false ∧ s.engine = .idle ∧ s.steps = 0 ∧
        s.errors = [] ∧ s.events = [] ∧
        ∀ (c : Command) (t : CoreState cfg) (u : State), State.command c ⟨cfg, t⟩ = .next u → u.cfg = cfg)

/-- An OPCODE_MAP that gives two variants one value is refused, after the two checks of R390. The refusal is the spec's
(70_reset_and_hazards.md section 1); its name and its place after the checks are the model's choice, log entry 8. -/
def Obligations.SharedOpcodeMapRefused : Prop :=
  ∀ (w r m : Nat) (map : Vector Nat 37) (bz : Bool) (ord : CmpOrder) (u v : Variant), 1 ≤ w → 1 ≤ r → u ≠ v →
    map[u.index] = map[v.index] → construct w r m map bz ord = .error .badOpcodeMap

/-- R392: `reset` clears the registers with pc, ir and the flags, or RAM, or both, sets the engine to `idle` and the
counter to 0, emits `reset` and keeps both logs; a full reset is the construction state apart from the logs. -/
def Obligations.ResetClearsWhatItNames : Prop :=
  ∀ (cfg : Config) (s : CoreState cfg),
    let evs := s.events ++ [Event.reset]
    s.resetCommand true true = { CoreState.initial cfg with errors := s.errors, events := evs } ∧
    s.resetCommand true false =
      { CoreState.initial cfg with ram := s.ram, errors := s.errors, events := evs } ∧
    s.resetCommand false true = { s with ram := [], engine := .idle, steps := 0, events := evs } ∧
    s.resetCommand false false = { s with engine := .idle, steps := 0, events := evs } ∧
    ∀ k, (s.resetCommand true true).reg.read k = 0 ∧ (s.resetCommand true true).ram.read k = 0

/-- A program of whole Bytes, however long, on any RAM: Byte k goes to the address `address + k` mod 2^W, MSB first. It is
stored there where that address is below M, the last one written standing where the program wraps onto its own start, and
is reported as ERR_ADDR, in order, and skipped where it is not. Every other cell, and everything but RAM and the reports,
is unchanged. -/
def Obligations.LoadProgramStoresBytes : Prop :=
  ∀ (cfg : Config) (s : CoreState cfg) (bits address : Bits) (n : Nat), s.ram.wf = true →
    address.length ≤ cfg.width → bits.length = n * cfg.width →
    let cellOf (k : Nat) : Nat := (address.uint + k) % 2 ^ cfg.width
    ∃ ram' : Memory cfg.width,
      s.loadProgram bits address =
        { s.report ((List.range n).flatMap (fun k => ramFault cfg (cellOf k))) with ram := ram' } ∧
      (∀ k, k < n → cellOf k < cfg.ramCells → (∀ j, k < j → j < n → cellOf j ≠ cellOf k) →
        (ram'.read (cellOf k)).toNat = Bits.uint ((bits.drop (k * cfg.width)).take cfg.width)) ∧
      (∀ a, (∀ k, k < n → cellOf k < cfg.ramCells → a ≠ cellOf k) → ram'.read a = s.ram.read a)

/-- A malformed load is reported and changes nothing else: an address longer than W bits, then a bit length that is no
multiple of W; and a start address longer than W bits is reported by `run`, which does nothing else. -/
def Obligations.MalformedHostInputsOnlyReport : Prop :=
  ∀ (cfg : Config) (s : CoreState cfg) (limit : StepLimit) (bits address : Bits),
    (cfg.width < address.length →
      s.loadProgram bits address = s.report [.hostAddrFormat address] ∧
      runWith limit address ⟨cfg, s⟩ = .next ⟨cfg, s.report [.hostAddrFormat address]⟩) ∧
    (address.length ≤ cfg.width → bits.length % cfg.width ≠ 0 →
      s.loadProgram bits address = s.report [.hostLoadLength bits.length])

/-- Every run terminates: after at most STEP_LIMIT steps, either a HLT has set `halted` or ERR_LOOP has, and when `run`
returns, the engine is `halted` (the spec's own inference, 40_execution_cycle.md section 4, "Every `run` terminates"), for
every legal STEP_LIMIT, the numbers from 1 on (log entry 20). -/
def Obligations.RunTerminatesHalted : Prop :=
  ∀ (cfg : Config) (s : CoreState cfg) (limit : StepLimit) (start : Bits), start.length ≤ cfg.width →
    ∃ t : CoreState cfg,
      runWith limit start ⟨cfg, s⟩ = .next ⟨cfg, t⟩ ∧ t.engine = .halted ∧ t.steps ≤ limit.val ∧
      (decodeOpcode cfg t.ir.toNat = some .hlt ∨
        (t.steps = limit.val ∧ t.errors.getLast? = some (.errLoop t.pc)))

/-- A run is the host's single steps, counted: from the start state of a run, if `n` steps below the limit each leave the
engine running and the next one halts it, the run ends there, having counted `n + 1` steps. -/
def Obligations.RunIsCountedSteps : Prop :=
  ∀ (cfg : Config) (s : CoreState cfg) (limit : StepLimit) (n : Nat) (start : Bits)
    (trace : Nat → CoreState cfg),
    start.length ≤ cfg.width → n < limit.val →
    trace 0 = s.beginRun (start.toByte cfg.width) →
    (∀ k, k ≤ n → step ⟨cfg, trace k⟩ = .next ⟨cfg, trace (k + 1)⟩) →
    (∀ k, k ≤ n → (trace k).engine = .running) → (trace (n + 1)).engine = .halted →
    runWith limit start ⟨cfg, s⟩ = .next ⟨cfg, { trace (n + 1) with steps := n + 1 }⟩

/-- A program of one jump to itself, whose two fetched cells lie in RAM, runs into the step limit: `limit` steps, then
ERR_LOOP and `halted`, pc still at the jump. -/
def Obligations.SelfJumpRunsIntoLimit : Prop :=
  ∀ (cfg : Config) (s : CoreState cfg) (limit : StepLimit) (start : Bits), start.length ≤ cfg.width →
    start.uint < cfg.ramCells → (start.uint + 1) % 2 ^ cfg.width < cfg.ramCells →
    (s.ram.read start.uint).toNat = cfg.opcode .jmpD →
    s.ram.read ((start.uint + 1) % 2 ^ cfg.width) = 0 →
    ∃ t : CoreState cfg,
      runWith limit start ⟨cfg, s⟩ = .next ⟨cfg, t⟩ ∧ t.engine = .halted ∧ t.steps = limit.val ∧
      t.pc.toNat = start.uint ∧ t.errors = s.errors ++ [.errLoop t.pc] ∧
      t.events = s.events ++ [.run] ++ List.replicate limit.val (.step t.pc) ++ [.error (.errLoop t.pc)]

/-! ### Codec and ALU -/

/-- R190: where the magnitude fits, `intToBits` is `bits_width`; where it does not, there is no result. -/
def Obligations.IntToBitsIsBitsW : Prop :=
  ∀ (value : Int) (width : Nat),
    intToBits value width = if value.natAbs < 2 ^ width then some (bitsW width value) else none

/-- R191: `bitsToInt` is `sint`. -/
def Obligations.BitsToIntIsSint : Prop := ∀ (w : Nat) (v : Byte w), 1 ≤ w → bitsToInt v = v.toInt

/-- R196: the ripple-carry adder adds exactly, and the result is one bit longer than the longer operand exactly when the
sum does not fit its length. -/
def Obligations.RippleAddIsExact : Prop :=
  ∀ a b : Bits,
    (rawAdd a b).uint = a.uint + b.uint ∧
    (rawAdd a b).length =
      max a.length b.length + (if 2 ^ max a.length b.length ≤ a.uint + b.uint then 1 else 0)

/-- R197: ADDW is the ripple-carry adder at the CPU layer: its sum is the low W bits of `add(a, b)` and its carry the bit
the addition extends the result by; it is `a + b` with CARRY false wherever that fits. -/
def Obligations.AddWIsRippleAdd : Prop :=
  ∀ (w : Nat) (a b : Byte w),
    (addW a b).1 = (rawAdd (Byte.toBits a) (Byte.toBits b)).toByte w ∧
    ((addW a b).2 = true ↔ (rawAdd (Byte.toBits a) (Byte.toBits b)).length = w + 1) ∧
    (addW a b).1.toNat = (a.toNat + b.toNat) % 2 ^ w ∧
    ((addW a b).2 = true ↔ 2 ^ w ≤ a.toNat + b.toNat)

/-- R198: NEG is `bits_W(2^W − uint(a))`, is its own inverse, and maps zero and the most negative value to themselves. -/
def Obligations.NegIsTwosComplement : Prop :=
  ∀ (w : Nat) (a : Byte w),
    neg a = trunc w (~~~a + 1#w) ∧ neg a = bitsW w ((2 ^ w - a.toNat : Nat) : Int) ∧ neg (neg a) = a ∧
    neg (0 : Byte w) = 0 ∧
    neg (bitsW w ((2 ^ (w - 1) : Nat) : Int)) = bitsW w ((2 ^ (w - 1) : Nat) : Int)

/-- SUBW (the spec's own inference from its addition and negation, 41_alu.md section 3) is the difference mod 2^W, the
low W bits of `add(a, NEG(b))`; its carry is that addition's carry out for a nonzero subtrahend, which is `uint(a) ≥
uint(b)`, and SUB_CARRY_B_ZERO for zero. -/
def Obligations.SubWIsAddOfNeg : Prop :=
  ∀ (w : Nat) (bz : Bool) (a b : Byte w),
    (subW bz a b).1 = bitsW w ((a.toNat : Int) - b.toNat) ∧
    (subW bz a b).1 = (rawAdd (Byte.toBits a) (Byte.toBits (neg b))).toByte w ∧
    (b ≠ 0 → ((subW bz a b).2 = true ↔ (rawAdd (Byte.toBits a) (Byte.toBits (neg b))).length = w + 1) ∧
      ((subW bz a b).2 = true ↔ b.toNat ≤ a.toNat)) ∧
    (b = 0 → (subW bz a b).2 = bz) ∧
    (subW true a b).2 = decide (b.toNat ≤ a.toNat)

/-- R200: shift-and-add multiplication is exact and needs at most 2n bits. -/
def Obligations.RawMultiplyIsExact : Prop :=
  ∀ a b : Bits, a.length = b.length →
    (rawMultiply a b).uint = a.uint * b.uint ∧ (rawMultiply a b).length ≤ 2 * a.length

/-- MULW (41_alu.md section 4; the product identity is the spec's own inference): its product is the signed and the
unsigned product mod 2^W; its carry is the shift-and-add product of the magnitudes reaching 2^W; its zero is "either
operand was zero". -/
def Obligations.MulWIsSignedProduct : Prop :=
  ∀ (w : Nat) (a b : Byte w),
    (magnitude a).toNat = a.toInt.natAbs ∧
    (mulW a b).1 = bitsW w (a.toInt * b.toInt) ∧
    (mulW a b).1 = bitsW w ((a.toNat * b.toNat : Nat) : Int) ∧
    ((mulW a b).2.1 = true ↔
      2 ^ w ≤ (rawMultiply (Byte.toBits (magnitude a)) (Byte.toBits (magnitude b))).uint) ∧
    ((mulW a b).2.1 = true ↔ 2 ^ w ≤ a.toInt.natAbs * b.toInt.natAbs) ∧
    ((mulW a b).2.2 = true ↔ a.toNat = 0 ∨ b.toNat = 0)

/-- R203: DECW's carry is `uint(a) ≥ 1`, and SUB_CARRY_B_ZERO never matters. -/
def Obligations.DecWIgnoresSwitch : Prop :=
  ∀ (w : Nat) (bz : Bool) (a : Byte w), 1 ≤ w →
    decW bz a = subW bz a (bitsW w 1) ∧ (decW bz a).2 = decide (1 ≤ a.toNat) ∧ decW bz a = decW (!bz) a

/-- R204: the comparator compares unsigned magnitudes, of operands of any lengths. -/
def Obligations.ComparatorIsUnsigned : Prop :=
  ∀ a b : Bits,
    lessThan a b = decide (a.uint < b.uint) ∧ lessOrEqual a b = decide (a.uint ≤ b.uint) ∧
    greaterOrEqual a b = decide (b.uint ≤ a.uint) ∧ greaterThan a b = decide (b.uint < a.uint) ∧
    equal a b = decide (a.uint = b.uint)

/-- The shifter (41_alu.md section 5): shift-left appends a zero bit and doubles; truncated to the old length it drops the
most significant bit; shift-right keeps the length and halves. That the empty sequence shifted right stays empty is the
model's choice, log entry 26. -/
def Obligations.ShifterDoublesAndHalves : Prop :=
  ∀ a : Bits,
    (shiftLeft a).length = a.length + 1 ∧ (shiftLeft a).uint = 2 * a.uint ∧
    Bits.uint ((shiftLeft a).drop 1) = 2 * a.uint % 2 ^ a.length ∧
    (shiftRight a).length = a.length ∧ (shiftRight a).uint = a.uint / 2

/-! ### The assembler -/

/-- The worked encoding at W = 8, the spec's own inference (30_encoding.md section 4). -/
def Obligations.WorkedEncodings : Prop :=
  compile Config.default "ADD %0,%1".toList =
    .ok (bitsOfNat 8 0b00000110 ++ bitsOfNat 8 0b00000000 ++ bitsOfNat 8 0b00000001) ∧
  (assembleInstr Config.default [("loop".toList, 0)] 1 1 "JMP !loop".toList).map
      (encodeBits Config.default) =
    .ok (bitsOfNat 8 0b00010101 ++ bitsOfNat 8 0b11111111 ++ bitsOfNat 8 0b00000000)

/-- Whatever the assembler accepts is a list of instructions that three W-bit cells can hold each: no opcode that does
not fit the width, no operand out of range. -/
def Obligations.AssembledInstructionsWellFormed : Prop :=
  ∀ (cfg : Config) (text : Text) (is : List Instr), assemble cfg text = .ok is →
    ∀ i ∈ is, i.WellFormed cfg

/-- A compiled program is three cells per instruction, and its k-th three Bytes decode to its k-th instruction. -/
def Obligations.CompiledProgramDecodes : Prop :=
  ∀ (cfg : Config) (text : Text) (is : List Instr), assemble cfg text = .ok is →
    ∃ bits : Bits, compile cfg text = .ok bits ∧ bits.length = 3 * cfg.width * is.length ∧
      ∀ (k : Nat) (i : Instr), is[k]? = some i →
        ∃ d : Decoded cfg,
          decode cfg ((bytesOf cfg.width 3 (bits.drop (3 * cfg.width * k))).map (Bits.toByte cfg.width)) =
            .ok (d, []) ∧ d.instr = i.canonical

/-- R124: a label name declared twice takes the value of its last declaration: whatever the lines before and whatever the
lines after, so long as those do not declare it, with the number of instructions queued before it as its value. -/
def Obligations.LastLabelDeclarationWins : Prop :=
  ∀ (before after : List Text) (name : Text) (line : Nat), isIdent name = true →
    (∀ l ∈ after, labelOf (trim l) ≠ some name) →
    lookupLabel (pass1 (before ++ (name ++ [':']) :: after) line 0).labels name =
      some (pass1 before line 0).instrs.length

/-- A literal or displacement (30_encoding.md section 4, the spec's own inference from `intToBits`) becomes `bits_W`
of its value exactly in `−2^(W−1) .. 2^W − 1`; any other is a range error, including those for which `intToBits` would
give a result. -/
def Obligations.LiteralRangeIsChecked : Prop :=
  ∀ (cfg : Config) (line : Nat) (k : Int),
    valueToCell cfg line k =
      if -(2 ^ (cfg.width - 1) : Int) ≤ k ∧ k ≤ 2 ^ cfg.width - 1 then .ok (bitsW cfg.width k)
      else .error (.range line k)
end

