-- ==== Sys2Proof/Laws/Codec.lean ====
section
/-! SUPPORT. The laws of bit sequences (00_scope.md R10, R11): `uint` of a sequence piece by piece, and that a Byte and
its bit sequence stand for the same number. -/

namespace Sys2Proof

@[simp] theorem Bits.uint_nil : Bits.uint [] = 0 := rfl

/-- The fold of `uint` started from any number. -/
theorem Bits.foldl_uint (v : Bits) (n : Nat) :
    v.foldl (fun n b => 2 * n + b.toNat) n = n * 2 ^ v.length + v.uint := by
  induction v generalizing n with
  | nil => simp
  | cons b v ih =>
    rw [List.foldl_cons, ih,
      show Bits.uint (b :: v) = v.foldl (fun n b => 2 * n + b.toNat) (2 * 0 + b.toNat) from rfl, ih,
      List.length_cons]
    ring

theorem Bits.uint_cons (b : Bool) (v : Bits) : Bits.uint (b :: v) = b.toNat * 2 ^ v.length + v.uint := by
  rw [Bits.uint, List.foldl_cons, Bits.foldl_uint, Nat.mul_zero, Nat.zero_add]

theorem Bits.uint_append (a b : Bits) : Bits.uint (a ++ b) = a.uint * 2 ^ b.length + b.uint := by
  rw [Bits.uint, List.foldl_append, Bits.foldl_uint]; rfl

/-- A sequence of n bits stands for a number below 2^n. -/
theorem Bits.uint_lt (v : Bits) : v.uint < 2 ^ v.length := by
  induction v with
  | nil => simp
  | cons b v ih => rw [Bits.uint_cons, List.length_cons, pow_succ]; cases b <;> simp <;> omega

theorem Bits.uint_replicate_false (n : Nat) : Bits.uint (List.replicate n false) = 0 := by
  induction n with
  | zero => rfl
  | succ n ih => rw [List.replicate_succ, Bits.uint_cons, ih]; simp

/-- Sequences of one length with one `uint` are equal. -/
theorem Bits.uint_injective : ∀ (a b : Bits), a.length = b.length → a.uint = b.uint → a = b
  | [], [], _, _ => rfl
  | a :: as, b :: bs, h, hu => by
    have hl : as.length = bs.length := by simpa using h
    have h1 := Bits.uint_lt as
    have h2 := Bits.uint_lt bs
    rw [Bits.uint_cons, Bits.uint_cons, hl] at hu
    rw [hl] at h1
    have hab : a = b := by cases a <;> cases b <;> simp at hu ⊢ <;> omega
    subst hab
    rw [Bits.uint_injective as bs hl (by omega)]
  | [], _ :: _, h, _ => by simp at h
  | _ :: _, [], h, _ => by simp at h

/-- A sequence of at most `w` bits keeps its number as a Byte. -/
theorem Bits.toByte_toNat (w : Nat) (v : Bits) (h : v.length ≤ w) : (v.toByte w).toNat = v.uint := by
  rw [Bits.toByte, BitVec.toNat_ofNat, Nat.mod_eq_of_lt]
  exact lt_of_lt_of_le v.uint_lt (Nat.pow_le_pow_right (by norm_num) h)

@[simp] theorem bitsOfNat_length : ∀ n k : Nat, (bitsOfNat n k).length = n
  | 0, _ => rfl
  | n + 1, k => by rw [bitsOfNat]; simp [bitsOfNat_length n]

theorem bitsOfNat_uint : ∀ n k : Nat, (bitsOfNat n k).uint = k % 2 ^ n
  | 0, k => by simp [bitsOfNat, Nat.mod_one]
  | n + 1, k => by
    rw [bitsOfNat, Bits.uint_append, bitsOfNat_uint n (k / 2), pow_succ', Nat.mod_mul]
    rcases Nat.mod_two_eq_zero_or_one k with h | h <;> simp [h, Bits.uint] <;> omega

@[simp] theorem Byte.toBits_length {w : Nat} (v : Byte w) : (Byte.toBits v).length = w := bitsOfNat_length _ _

@[simp] theorem Byte.toBits_uint {w : Nat} (v : Byte w) : (Byte.toBits v).uint = v.toNat := by
  rw [Byte.toBits, bitsOfNat_uint, Nat.mod_eq_of_lt v.isLt]

/-- A Byte read back from its bit sequence. -/
@[simp] theorem Byte.toByte_toBits {w : Nat} (v : Byte w) : (Byte.toBits v).toByte w = v := by
  apply BitVec.eq_of_toNat_eq
  rw [Bits.toByte_toNat _ _ (le_of_eq (Byte.toBits_length v)), Byte.toBits_uint]

end Sys2Proof
end

