-- ==== Sys2Proof/Laws/Word.lean ====
section
/-! SUPPORT. The small lemmas of `bitsW` (00_scope.md R11). -/

namespace Sys2Proof

@[simp] theorem bitsW_toNat (w k : Nat) : (bitsW w (k : Int)).toNat = k % 2 ^ w := by
  simp [bitsW]

theorem bitsW_toNat_int (w : Nat) (k : Int) : ((bitsW w k).toNat : Int) = k % (2 ^ w : Nat) := by
  have h : (0 : Int) < ((2 ^ w : Nat) : Int) := by exact_mod_cast Nat.two_pow_pos w
  rw [bitsW, BitVec.toNat_ofInt, Int.toNat_of_nonneg (Int.emod_nonneg _ (ne_of_gt h))]

theorem bitsW_natCast (w k : Nat) : bitsW w (k : Int) = BitVec.ofNat w k := by
  apply BitVec.eq_of_toNat_eq; simp

@[simp] theorem bitsW_zero (w : Nat) : bitsW w 0 = 0 := by
  apply BitVec.eq_of_toNat_eq; simpa using bitsW_toNat w 0

/-- A cell is `bits_W` of its own `uint`. -/
@[simp] theorem bitsW_toNat_self {w : Nat} (v : Byte w) : bitsW w (v.toNat : Int) = v := by
  apply BitVec.eq_of_toNat_eq
  rw [bitsW_toNat, Nat.mod_eq_of_lt v.isLt]

/-- `bits_W` is the same for numbers that agree mod `2^W`. -/
theorem bitsW_congr {w : Nat} {j k : Int} (h : j % (2 ^ w : Nat) = k % (2 ^ w : Nat)) :
    bitsW w j = bitsW w k := by
  apply BitVec.eq_of_toNat_eq
  exact_mod_cast (bitsW_toNat_int w j).trans (h.trans (bitsW_toNat_int w k).symm)

end Sys2Proof
end

