-- ==== Sys2Proof/Laws/Alu.lean ====
section
/-! SUPPORT. One lemma per CPU-layer function of the ALU (41_alu.md): its value and its carry as numbers, and the
zero-padding of the raw datapath. -/

namespace Sys2Proof

theorem padTo_length (n : Nat) (v : Bits) (h : v.length ≤ n) : (padTo n v).length = n := by
  simp [padTo]; omega

@[simp] theorem padTo_uint (n : Nat) (v : Bits) : (padTo n v).uint = v.uint := by
  rw [padTo, Bits.uint_append, Bits.uint_replicate_false, Nat.zero_mul, Nat.zero_add]

theorem bitsW_one_toNat {w : Nat} (h : 1 ≤ w) : (bitsW w 1).toNat = 1 := by
  have h1 : (bitsW w 1).toNat = 1 % 2 ^ w := by exact_mod_cast bitsW_toNat w 1
  rw [h1, Nat.mod_eq_of_lt]
  exact Nat.one_lt_two_pow (by omega)

theorem addW_fst_toNat {w : Nat} (a b : Byte w) : (addW a b).1.toNat = (a.toNat + b.toNat) % 2 ^ w := by
  unfold addW; exact_mod_cast bitsW_toNat w (a.toNat + b.toNat)

theorem addW_snd {w : Nat} (a b : Byte w) : (addW a b).2 = decide (2 ^ w ≤ a.toNat + b.toNat) := rfl

theorem neg_toNat {w : Nat} (a : Byte w) : (neg a).toNat = (2 ^ w - a.toNat) % 2 ^ w := by
  have h := a.isLt
  have h1 : (bitsW w 1).toNat = 1 % 2 ^ w := by exact_mod_cast bitsW_toNat w 1
  have h2 : (~~~a).toNat = 2 ^ w - 1 - a.toNat := by simp
  rw [neg, addW_fst_toNat, h1, h2, Nat.add_mod_mod]
  congr 1
  omega

/-- `NEG` is the negation of bit vectors. -/
theorem neg_eq {w : Nat} (a : Byte w) : neg a = -a := by
  apply BitVec.eq_of_toNat_eq; rw [neg_toNat]; simp

theorem subW_fst_toNat {w : Nat} (bz : Bool) (a b : Byte w) :
    (subW bz a b).1.toNat = (a.toNat + (2 ^ w - b.toNat)) % 2 ^ w := by
  simp only [subW]; rw [addW_fst_toNat, neg_toNat, Nat.add_mod_mod]

/-- The carry of `SUBW`: no unsigned borrow, or the switch for a zero subtrahend. -/
theorem subW_snd {w : Nat} (bz : Bool) (a b : Byte w) :
    (subW bz a b).2 = if b.toNat = 0 then bz else decide (b.toNat ≤ a.toNat) := by
  have hb0 : b = 0 ↔ b.toNat = 0 := by rw [← BitVec.toNat_inj]; simp
  have hb := b.isLt
  have ha := a.isLt
  simp only [subW, hb0]
  split
  · rfl
  · simp only [addW]; rw [neg_toNat, Nat.mod_eq_of_lt (by omega)]; congr 1; simp; omega

/-- `MULW` multiplies the absolute values of the operands. -/
theorem magnitude_toNat_eq {w : Nat} (a : Byte w) : (magnitude a).toNat = a.toInt.natAbs := by
  unfold magnitude
  have ha := a.isLt
  rw [BitVec.toInt_eq_msb_cond]
  split
  · rename_i h
    have hw : 0 < w := by
      rcases Nat.eq_zero_or_pos w with rfl | h'
      · exact absurd h (by simp [BitVec.msb, BitVec.getMsbD])
      · exact h'
    have : 2 ^ (w - 1) ≤ a.toNat := by simpa [BitVec.msb_eq_decide] using h
    have := Nat.two_pow_pos (w - 1)
    rw [neg_toNat, Nat.mod_eq_of_lt (by omega)]; omega
  · simp

end Sys2Proof
end

