-- ==== Sys2Proof/Laws/Decode.lean ====
section
/-! SUPPORT. The small lemmas of the variant tables and of opcode lookup (30_encoding.md R101, R113). -/

namespace Sys2Proof

theorem Variant.mem_all (v : Variant) : v ∈ Variant.all := by cases v <;> decide

theorem Variant.index_injective {u v : Variant} (h : u.index = v.index) : u = v := by
  revert h; cases u <;> cases v <;> first | exact fun _ => rfl | exact fun h => absurd h (by decide)

/-- Two variants never share an opcode: every instance's OPCODE_MAP is injective on variants (R113). -/
theorem Config.opcode_injective (cfg : Config) {u v : Variant} (h : cfg.opcode u = cfg.opcode v) : u = v := by
  apply Variant.index_injective
  have hn := cfg.opcodeMap_nodup
  unfold Config.opcode at h
  apply Fin.ext
  refine (List.Nodup.getElem_inj_iff hn (hi := ?_) (hj := ?_)).1 ?_
  · simp
  · simp
  · simpa using h

/-- What opcode lookup answers has that opcode. -/
theorem opcode_of_decodeOpcode {cfg : Config} {n : Nat} {v : Variant} (h : decodeOpcode cfg n = some v) :
    cfg.opcode v = n := by
  simpa using List.find?_some h

/-- Looking up a variant's opcode answers the variant. -/
theorem decodeOpcode_opcode (cfg : Config) (v : Variant) : decodeOpcode cfg (cfg.opcode v) = some v := by
  cases h : decodeOpcode cfg (cfg.opcode v) with
  | none =>
    have := List.find?_eq_none.1 h v v.mem_all
    simp at this
  | some u => exact congrArg some (cfg.opcode_injective (opcode_of_decodeOpcode h))

/-- Lookup refuses exactly the values OPCODE_MAP does not assign. -/
theorem decodeOpcode_eq_none (cfg : Config) (n : Nat) :
    decodeOpcode cfg n = none ↔ ∀ v : Variant, cfg.opcode v ≠ n := by
  simp [decodeOpcode, List.find?_eq_none, Variant.mem_all]

/-- Decoding an encoded opcode cell, where it fits the width. -/
theorem decode_cells (cfg : Config) (v : Variant) (h : cfg.opcode v < 2 ^ cfg.width)
    (a b : Byte cfg.width) (rest : List (Byte cfg.width)) :
    decode cfg (bitsW cfg.width (cfg.opcode v) :: a :: b :: rest) =
      .ok (⟨v.instr a.toNat b.toNat, a, b⟩, rest) := by
  have ho : (bitsW cfg.width (cfg.opcode v : Int)).toNat = cfg.opcode v := by
    rw [bitsW, BitVec.toNat_ofInt]
    have : ((cfg.opcode v : Int) % ((2 ^ cfg.width : Nat) : Int)) = cfg.opcode v :=
      Int.emod_eq_of_lt (by positivity) (by exact_mod_cast h)
    rw [this]; simp
  simp only [decode, ho, decodeOpcode_opcode]

/-! The instruction a variant makes: its variant, its operands by arity, and that it is its own canonical key. -/

@[simp] theorem Variant.instr_variant (v : Variant) (a b : Operand) : (v.instr a b).variant = v := by
  cases v <;> rfl

theorem Variant.instr_operandA (v : Variant) (a b : Operand) :
    (v.instr a b).operandA = if 1 ≤ v.arity then a else 0 := by cases v <;> rfl

theorem Variant.instr_operandB (v : Variant) (a b : Operand) :
    (v.instr a b).operandB = if v.arity = 2 then b else 0 := by cases v <;> rfl

@[simp] theorem Variant.instr_canonical (v : Variant) (a b : Operand) :
    (v.instr a b).canonical = v.instr a b := by cases v <;> rfl

end Sys2Proof
end

