-- ==== Sys2Proof/Laws/Memory.lean ====
section
/-! SUPPORT. The laws of the Memory component (20_memory.md R71 to R74): read after write, and that every memory
operation keeps the canonical form and the capacity bound. -/

namespace Sys2Proof.Machine.Memory

variable {w : Nat}

@[simp] theorem read_nil (a : Nat) : Memory.read ([] : Memory w) a = 0 := rfl

@[simp] theorem wf_nil : Memory.wf ([] : Memory w) = true := rfl

@[simp] theorem within_nil (n : Nat) : Memory.within n ([] : Memory w) = true := rfl

@[simp] theorem clear_eq (m : Memory w) : m.clear = [] := rfl

theorem read_cons (b : Nat) (v : Byte w) (m : Memory w) (a : Nat) :
    Memory.read ((b, v) :: m) a = if a = b then v else m.read a := rfl

theorem wf_cons (b : Nat) (v : Byte w) (m : Memory w) :
    Memory.wf ((b, v) :: m) = true ↔ v ≠ 0 ∧ (∀ e ∈ m, b < e.1) ∧ m.wf = true := by
  simp [Memory.wf, and_assoc]

theorem within_cons (n b : Nat) (v : Byte w) (m : Memory w) :
    Memory.within n ((b, v) :: m) = true ↔ b < n ∧ m.within n = true := by
  simp [Memory.within]

/-- A cell below every listed index reads zero. -/
theorem read_of_lt : ∀ (m : Memory w) (a : Nat), (∀ e ∈ m, a < e.1) → m.read a = 0
  | [], _, _ => rfl
  | (b, v) :: m, a, h => by
    have hb : a ≠ b := Nat.ne_of_lt (h (b, v) (by simp))
    rw [read_cons, if_neg hb]
    exact read_of_lt m a (fun e he => h e (by simp [he]))

theorem read_entry_append (a : Nat) (v : Byte w) (m : Memory w) (k : Nat) (h : ∀ e ∈ m, a < e.1) :
    Memory.read (Memory.entry a v ++ m) k = if k = a then v else m.read k := by
  unfold Memory.entry
  split
  next hv =>
    split
    next hk => subst hk; simpa [hv] using read_of_lt m k h
    next => simp
  next => exact read_cons a v m k

/-- Read after write: the written cell reads the value, every other cell reads as before. -/
theorem read_write : ∀ (m : Memory w) (a : Nat) (v : Byte w) (k : Nat), m.wf = true →
    (m.write a v).read k = if k = a then v else m.read k
  | [], a, v, k, _ => by simpa [Memory.write] using read_entry_append a v [] k (by simp)
  | (b, u) :: m, a, v, k, h => by
    obtain ⟨_, hlt, hm⟩ := (wf_cons b u m).1 h
    unfold Memory.write
    split
    next hab =>
      refine read_entry_append a v _ k (fun e he => ?_)
      rcases List.mem_cons.1 he with rfl | he
      · exact hab
      · exact Nat.lt_trans hab (hlt e he)
    next hab =>
      split
      next heq =>
        subst heq
        rw [read_entry_append a v m k hlt, read_cons]
        split <;> rfl
      next hne =>
        rw [read_cons, read_cons, read_write m a v k hm]
        by_cases hk : k = b
        · subst hk; simp [Ne.symm hne]
        · simp [hk]

theorem read_write_self (m : Memory w) (a : Nat) (v : Byte w) (h : m.wf = true) :
    (m.write a v).read a = v := by simp [read_write m a v a h]

theorem read_write_of_ne (m : Memory w) {a k : Nat} (v : Byte w) (h : m.wf = true) (hk : k ≠ a) :
    (m.write a v).read k = m.read k := by simp [read_write m a v k h, hk]

/-- The listed indexes after a write: the written one and those of before. -/
theorem mem_write : ∀ (m : Memory w) (a : Nat) (v : Byte w) (e : Nat × Byte w),
    e ∈ m.write a v → e.1 = a ∨ e ∈ m
  | [], a, v, e, h => by
    unfold Memory.write Memory.entry at h
    split at h
    · simp at h
    · left; simp at h; simp [h]
  | (b, u) :: m, a, v, e, h => by
    have he : ∀ {m' : Memory w}, e ∈ Memory.entry a v ++ m' → e.1 = a ∨ e ∈ m' := by
      intro m' h'
      unfold Memory.entry at h'
      split at h'
      · right; simpa using h'
      · rcases List.mem_cons.1 h' with h' | h'
        · left; simp [h']
        · right; exact h'
    unfold Memory.write at h
    split at h
    · exact he h
    · split at h
      · rcases he h with h | h
        · exact .inl h
        · exact .inr (List.mem_cons_of_mem _ h)
      · rcases List.mem_cons.1 h with h | h
        · right; simp [h]
        · rcases mem_write m a v e h with h | h
          · exact .inl h
          · exact .inr (List.mem_cons_of_mem _ h)

theorem wf_entry_append (a : Nat) (v : Byte w) (m : Memory w) (h : m.wf = true) (hlt : ∀ e ∈ m, a < e.1) :
    Memory.wf (Memory.entry a v ++ m) = true := by
  unfold Memory.entry
  split
  · simpa using h
  · next hv => exact (wf_cons a v m).2 ⟨hv, hlt, h⟩

/-- A write keeps the canonical form. -/
theorem wf_write : ∀ (m : Memory w) (a : Nat) (v : Byte w), m.wf = true → (m.write a v).wf = true
  | [], a, v, _ => by simpa [Memory.write] using wf_entry_append a v [] rfl (by simp)
  | (b, u) :: m, a, v, h => by
    obtain ⟨hu, hlt, hm⟩ := (wf_cons b u m).1 h
    unfold Memory.write
    split
    next hab =>
      refine wf_entry_append a v _ h (fun e he => ?_)
      rcases List.mem_cons.1 he with rfl | he
      · exact hab
      · exact Nat.lt_trans hab (hlt e he)
    next hab =>
      split
      next heq => exact wf_entry_append a v m hm (by subst heq; exact hlt)
      next hne =>
        refine (wf_cons b u _).2 ⟨hu, fun e he => ?_, wf_write m a v hm⟩
        rcases mem_write m a v e he with h | h
        · omega
        · exact hlt e h

/-- A write below the capacity keeps every listed index below it. -/
theorem within_write (n : Nat) (m : Memory w) (a : Nat) (v : Byte w) (ha : a < n)
    (h : m.within n = true) : (m.write a v).within n = true := by
  unfold Memory.within at *
  rw [List.all_eq_true] at *
  intro e he
  rcases mem_write m a v e he with h' | h'
  · simpa [h'] using ha
  · exact h e h'

/-- Memories in canonical form that read alike are equal. -/
theorem eq_of_read : ∀ (m n : Memory w), m.wf = true → n.wf = true → (∀ k, m.read k = n.read k) → m = n
  | [], [], _, _, _ => rfl
  | [], (b, v) :: n, _, hn, h => by
    have := h b
    simp [read_cons] at this
    exact absurd this.symm ((wf_cons b v n).1 hn).1
  | (b, v) :: m, [], hm, _, h => by
    have := h b
    simp [read_cons] at this
    exact absurd this ((wf_cons b v m).1 hm).1
  | (b, v) :: m, (c, u) :: n, hm, hn, h => by
    obtain ⟨hv, hbm, hm'⟩ := (wf_cons b v m).1 hm
    obtain ⟨hu, hcn, hn'⟩ := (wf_cons c u n).1 hn
    have hbc : b = c := by
      rcases Nat.lt_trichotomy b c with hlt | heq | hlt
      · have h1 := h b
        rw [read_cons, if_pos rfl, read_cons, if_neg (Nat.ne_of_lt hlt),
          read_of_lt n b (fun e he => Nat.lt_trans hlt (hcn e he))] at h1
        exact absurd h1 hv
      · exact heq
      · have h1 := h c
        rw [read_cons, if_neg (Nat.ne_of_lt hlt), read_cons, if_pos rfl,
          read_of_lt m c (fun e he => Nat.lt_trans hlt (hbm e he))] at h1
        exact absurd h1.symm hu
    subst hbc
    have hvu : v = u := by simpa [read_cons] using h b
    subst hvu
    congr 1
    refine eq_of_read m n hm' hn' (fun k => ?_)
    by_cases hk : k = b
    · subst hk; rw [read_of_lt m k hbm, read_of_lt n k hcn]
    · simpa [read_cons, hk] using h k

end Sys2Proof.Machine.Memory
end

