-- ==== Sys2Proof/Laws/State.lean ====
section
/-! SUPPORT. The small lemmas of the state: one per field per update, true by `rfl`, so that no proof unfolds a
record update. -/

namespace Sys2Proof.Machine.CoreState

variable {cfg : Config} (s : CoreState cfg)

@[simp] theorem emit_reg (e : Event cfg.width) : (s.emit e).reg = s.reg := rfl
@[simp] theorem emit_ram (e : Event cfg.width) : (s.emit e).ram = s.ram := rfl
@[simp] theorem emit_pc (e : Event cfg.width) : (s.emit e).pc = s.pc := rfl
@[simp] theorem emit_ir (e : Event cfg.width) : (s.emit e).ir = s.ir := rfl
@[simp] theorem emit_carry (e : Event cfg.width) : (s.emit e).carry = s.carry := rfl
@[simp] theorem emit_zero (e : Event cfg.width) : (s.emit e).zero = s.zero := rfl
@[simp] theorem emit_sign (e : Event cfg.width) : (s.emit e).sign = s.sign := rfl
@[simp] theorem emit_engine (e : Event cfg.width) : (s.emit e).engine = s.engine := rfl
@[simp] theorem emit_steps (e : Event cfg.width) : (s.emit e).steps = s.steps := rfl
@[simp] theorem emit_errors (e : Event cfg.width) : (s.emit e).errors = s.errors := rfl
@[simp] theorem emit_events (e : Event cfg.width) : (s.emit e).events = s.events ++ [e] := rfl

@[simp] theorem raise_reg (e : ErrorRecord cfg.width) : (s.raise e).reg = s.reg := rfl
@[simp] theorem raise_ram (e : ErrorRecord cfg.width) : (s.raise e).ram = s.ram := rfl
@[simp] theorem raise_pc (e : ErrorRecord cfg.width) : (s.raise e).pc = s.pc := rfl
@[simp] theorem raise_ir (e : ErrorRecord cfg.width) : (s.raise e).ir = s.ir := rfl
@[simp] theorem raise_carry (e : ErrorRecord cfg.width) : (s.raise e).carry = s.carry := rfl
@[simp] theorem raise_zero (e : ErrorRecord cfg.width) : (s.raise e).zero = s.zero := rfl
@[simp] theorem raise_sign (e : ErrorRecord cfg.width) : (s.raise e).sign = s.sign := rfl
@[simp] theorem raise_engine (e : ErrorRecord cfg.width) : (s.raise e).engine = s.engine := rfl
@[simp] theorem raise_steps (e : ErrorRecord cfg.width) : (s.raise e).steps = s.steps := rfl
@[simp] theorem raise_errors (e : ErrorRecord cfg.width) : (s.raise e).errors = s.errors ++ [e] := rfl
@[simp] theorem raise_events (e : ErrorRecord cfg.width) : (s.raise e).events = s.events ++ [.error e] := rfl

@[simp] theorem setPc_reg (v : Byte cfg.width) : (s.setPc v).reg = s.reg := rfl
@[simp] theorem setPc_ram (v : Byte cfg.width) : (s.setPc v).ram = s.ram := rfl
@[simp] theorem setPc_pc (v : Byte cfg.width) : (s.setPc v).pc = v := rfl
@[simp] theorem setPc_ir (v : Byte cfg.width) : (s.setPc v).ir = s.ir := rfl
@[simp] theorem setPc_carry (v : Byte cfg.width) : (s.setPc v).carry = s.carry := rfl
@[simp] theorem setPc_zero (v : Byte cfg.width) : (s.setPc v).zero = s.zero := rfl
@[simp] theorem setPc_sign (v : Byte cfg.width) : (s.setPc v).sign = s.sign := rfl
@[simp] theorem setPc_engine (v : Byte cfg.width) : (s.setPc v).engine = s.engine := rfl
@[simp] theorem setPc_steps (v : Byte cfg.width) : (s.setPc v).steps = s.steps := rfl
@[simp] theorem setPc_errors (v : Byte cfg.width) : (s.setPc v).errors = s.errors := rfl
@[simp] theorem setPc_events (v : Byte cfg.width) : (s.setPc v).events = s.events := rfl

@[simp] theorem advance_reg : (s.advance).reg = s.reg := rfl
@[simp] theorem advance_ram : (s.advance).ram = s.ram := rfl
@[simp] theorem advance_pc : (s.advance).pc = s.nextPc := rfl
@[simp] theorem advance_ir : (s.advance).ir = s.ir := rfl
@[simp] theorem advance_carry : (s.advance).carry = s.carry := rfl
@[simp] theorem advance_zero : (s.advance).zero = s.zero := rfl
@[simp] theorem advance_sign : (s.advance).sign = s.sign := rfl
@[simp] theorem advance_engine : (s.advance).engine = s.engine := rfl
@[simp] theorem advance_steps : (s.advance).steps = s.steps := rfl
@[simp] theorem advance_errors : (s.advance).errors = s.errors := rfl
@[simp] theorem advance_events : (s.advance).events = s.events := rfl

@[simp] theorem setFlags_reg (f : Flags) : (s.setFlags f).reg = s.reg := rfl
@[simp] theorem setFlags_ram (f : Flags) : (s.setFlags f).ram = s.ram := rfl
@[simp] theorem setFlags_pc (f : Flags) : (s.setFlags f).pc = s.pc := rfl
@[simp] theorem setFlags_ir (f : Flags) : (s.setFlags f).ir = s.ir := rfl
@[simp] theorem setFlags_carry (f : Flags) : (s.setFlags f).carry = f.carry := rfl
@[simp] theorem setFlags_zero (f : Flags) : (s.setFlags f).zero = f.zero := rfl
@[simp] theorem setFlags_sign (f : Flags) : (s.setFlags f).sign = f.sign := rfl
@[simp] theorem setFlags_engine (f : Flags) : (s.setFlags f).engine = s.engine := rfl
@[simp] theorem setFlags_steps (f : Flags) : (s.setFlags f).steps = s.steps := rfl
@[simp] theorem setFlags_errors (f : Flags) : (s.setFlags f).errors = s.errors := rfl
@[simp] theorem setFlags_events (f : Flags) : (s.setFlags f).events = s.events := rfl

@[simp] theorem setEngine_reg (e : Engine) : (s.setEngine e).reg = s.reg := rfl
@[simp] theorem setEngine_ram (e : Engine) : (s.setEngine e).ram = s.ram := rfl
@[simp] theorem setEngine_pc (e : Engine) : (s.setEngine e).pc = s.pc := rfl
@[simp] theorem setEngine_ir (e : Engine) : (s.setEngine e).ir = s.ir := rfl
@[simp] theorem setEngine_carry (e : Engine) : (s.setEngine e).carry = s.carry := rfl
@[simp] theorem setEngine_zero (e : Engine) : (s.setEngine e).zero = s.zero := rfl
@[simp] theorem setEngine_sign (e : Engine) : (s.setEngine e).sign = s.sign := rfl
@[simp] theorem setEngine_engine (e : Engine) : (s.setEngine e).engine = e := rfl
@[simp] theorem setEngine_steps (e : Engine) : (s.setEngine e).steps = s.steps := rfl
@[simp] theorem setEngine_errors (e : Engine) : (s.setEngine e).errors = s.errors := rfl
@[simp] theorem setEngine_events (e : Engine) : (s.setEngine e).events = s.events := rfl

@[simp] theorem countStep_reg : (s.countStep).reg = s.reg := rfl
@[simp] theorem countStep_ram : (s.countStep).ram = s.ram := rfl
@[simp] theorem countStep_pc : (s.countStep).pc = s.pc := rfl
@[simp] theorem countStep_ir : (s.countStep).ir = s.ir := rfl
@[simp] theorem countStep_carry : (s.countStep).carry = s.carry := rfl
@[simp] theorem countStep_zero : (s.countStep).zero = s.zero := rfl
@[simp] theorem countStep_sign : (s.countStep).sign = s.sign := rfl
@[simp] theorem countStep_engine : (s.countStep).engine = s.engine := rfl
@[simp] theorem countStep_steps : (s.countStep).steps = s.steps + 1 := rfl
@[simp] theorem countStep_errors : (s.countStep).errors = s.errors := rfl
@[simp] theorem countStep_events : (s.countStep).events = s.events := rfl

@[simp] theorem notifyStep_reg : (s.notifyStep).reg = s.reg := rfl
@[simp] theorem notifyStep_ram : (s.notifyStep).ram = s.ram := rfl
@[simp] theorem notifyStep_pc : (s.notifyStep).pc = s.pc := rfl
@[simp] theorem notifyStep_ir : (s.notifyStep).ir = s.ir := rfl
@[simp] theorem notifyStep_carry : (s.notifyStep).carry = s.carry := rfl
@[simp] theorem notifyStep_zero : (s.notifyStep).zero = s.zero := rfl
@[simp] theorem notifyStep_sign : (s.notifyStep).sign = s.sign := rfl
@[simp] theorem notifyStep_engine : (s.notifyStep).engine = s.engine := rfl
@[simp] theorem notifyStep_steps : (s.notifyStep).steps = s.steps := rfl
@[simp] theorem notifyStep_errors : (s.notifyStep).errors = s.errors := rfl
@[simp] theorem notifyStep_events : (s.notifyStep).events = s.events ++ [.step s.pc] := rfl

@[simp] theorem beginRun_reg (v : Byte cfg.width) : (s.beginRun v).reg = s.reg := rfl
@[simp] theorem beginRun_ram (v : Byte cfg.width) : (s.beginRun v).ram = s.ram := rfl
@[simp] theorem beginRun_pc (v : Byte cfg.width) : (s.beginRun v).pc = v := rfl
@[simp] theorem beginRun_ir (v : Byte cfg.width) : (s.beginRun v).ir = s.ir := rfl
@[simp] theorem beginRun_carry (v : Byte cfg.width) : (s.beginRun v).carry = s.carry := rfl
@[simp] theorem beginRun_zero (v : Byte cfg.width) : (s.beginRun v).zero = s.zero := rfl
@[simp] theorem beginRun_sign (v : Byte cfg.width) : (s.beginRun v).sign = s.sign := rfl
@[simp] theorem beginRun_engine (v : Byte cfg.width) : (s.beginRun v).engine = .running := rfl
@[simp] theorem beginRun_steps (v : Byte cfg.width) : (s.beginRun v).steps = 0 := rfl
@[simp] theorem beginRun_errors (v : Byte cfg.width) : (s.beginRun v).errors = s.errors := rfl
@[simp] theorem beginRun_events (v : Byte cfg.width) : (s.beginRun v).events = s.events ++ [.run] := rfl

@[simp] theorem stopAtLimit_reg : (s.stopAtLimit).reg = s.reg := rfl
@[simp] theorem stopAtLimit_ram : (s.stopAtLimit).ram = s.ram := rfl
@[simp] theorem stopAtLimit_pc : (s.stopAtLimit).pc = s.pc := rfl
@[simp] theorem stopAtLimit_ir : (s.stopAtLimit).ir = s.ir := rfl
@[simp] theorem stopAtLimit_carry : (s.stopAtLimit).carry = s.carry := rfl
@[simp] theorem stopAtLimit_zero : (s.stopAtLimit).zero = s.zero := rfl
@[simp] theorem stopAtLimit_sign : (s.stopAtLimit).sign = s.sign := rfl
@[simp] theorem stopAtLimit_engine : (s.stopAtLimit).engine = .halted := rfl
@[simp] theorem stopAtLimit_steps : (s.stopAtLimit).steps = s.steps := rfl
@[simp] theorem stopAtLimit_errors : (s.stopAtLimit).errors = s.errors ++ [.errLoop s.pc] := rfl
@[simp] theorem stopAtLimit_events : (s.stopAtLimit).events = s.events ++ [.error (.errLoop s.pc)] := rfl

@[simp] theorem unknownOpcode_reg : (s.unknownOpcode).reg = s.reg := rfl
@[simp] theorem unknownOpcode_ram : (s.unknownOpcode).ram = s.ram := rfl
@[simp] theorem unknownOpcode_pc : (s.unknownOpcode).pc = s.nextPc := rfl
@[simp] theorem unknownOpcode_ir : (s.unknownOpcode).ir = s.ir := rfl
@[simp] theorem unknownOpcode_carry : (s.unknownOpcode).carry = s.carry := rfl
@[simp] theorem unknownOpcode_zero : (s.unknownOpcode).zero = s.zero := rfl
@[simp] theorem unknownOpcode_sign : (s.unknownOpcode).sign = s.sign := rfl
@[simp] theorem unknownOpcode_engine : (s.unknownOpcode).engine = s.engine := rfl
@[simp] theorem unknownOpcode_steps : (s.unknownOpcode).steps = s.steps := rfl
@[simp] theorem unknownOpcode_errors : (s.unknownOpcode).errors = s.errors ++ [.errOpcode s.ir s.pc] := rfl
@[simp] theorem unknownOpcode_events :
    (s.unknownOpcode).events = s.events ++ [.error (.errOpcode s.ir s.pc)] := rfl

@[simp] theorem report_reg (es : List (ErrorRecord cfg.width)) : (s.report es).reg = s.reg := rfl
@[simp] theorem report_ram (es : List (ErrorRecord cfg.width)) : (s.report es).ram = s.ram := rfl
@[simp] theorem report_pc (es : List (ErrorRecord cfg.width)) : (s.report es).pc = s.pc := rfl
@[simp] theorem report_ir (es : List (ErrorRecord cfg.width)) : (s.report es).ir = s.ir := rfl
@[simp] theorem report_carry (es : List (ErrorRecord cfg.width)) : (s.report es).carry = s.carry := rfl
@[simp] theorem report_zero (es : List (ErrorRecord cfg.width)) : (s.report es).zero = s.zero := rfl
@[simp] theorem report_sign (es : List (ErrorRecord cfg.width)) : (s.report es).sign = s.sign := rfl
@[simp] theorem report_engine (es : List (ErrorRecord cfg.width)) : (s.report es).engine = s.engine := rfl
@[simp] theorem report_steps (es : List (ErrorRecord cfg.width)) : (s.report es).steps = s.steps := rfl
@[simp] theorem report_errors (es : List (ErrorRecord cfg.width)) :
    (s.report es).errors = s.errors ++ es := rfl
@[simp] theorem report_events (es : List (ErrorRecord cfg.width)) :
    (s.report es).events = s.events ++ es.map .error := rfl

@[simp] theorem initial_reg : (initial cfg).reg = [] := rfl
@[simp] theorem initial_ram : (initial cfg).ram = [] := rfl
@[simp] theorem initial_pc : (initial cfg).pc = 0 := rfl
@[simp] theorem initial_ir : (initial cfg).ir = 0 := rfl
@[simp] theorem initial_carry : (initial cfg).carry = false := rfl
@[simp] theorem initial_zero : (initial cfg).zero = false := rfl
@[simp] theorem initial_sign : (initial cfg).sign = false := rfl
@[simp] theorem initial_engine : (initial cfg).engine = .idle := rfl
@[simp] theorem initial_steps : (initial cfg).steps = 0 := rfl
@[simp] theorem initial_errors : (initial cfg).errors = [] := rfl
@[simp] theorem initial_events : (initial cfg).events = [] := rfl

@[simp] theorem report_nil : s.report [] = s := by simp [report]

/-- Reporting one after the other is reporting both. -/
theorem report_report (es fs : List (ErrorRecord cfg.width)) : (s.report es).report fs = s.report (es ++ fs) := by
  simp [report]

/-- `raise` reports one error. -/
theorem raise_eq_report (e : ErrorRecord cfg.width) : s.raise e = s.report [e] := rfl

end Sys2Proof.Machine.CoreState
end

