-- ==== Sys2Proof/Laws/Ops.lean ====
section
/-! SUPPORT. One specification lemma per shared operation: what a register or RAM access, an operand access, a move,
an arithmetic instruction, a compare, a jump and an output do, for every value of an operand cell. Later proofs cite
these and do not unfold the operations. -/

namespace Sys2Proof.Machine.CoreState

variable {cfg : Config}

theorem cell_toNat {c : Operand} (h : c < 2 ^ cfg.width) : (cell cfg c).toNat = c := by
  rw [cell, bitsW_toNat, Nat.mod_eq_of_lt h]

/-- A Memory with a value stored below its capacity, as the writes leave it. -/
def storeBelow {w : Nat} (n : Nat) (m : Memory w) (c : Nat) (v : Byte w) : Memory w :=
  if c < n then m.write c v else m

theorem stored_storeBelow {w : Nat} (n : Nat) (m : Memory w) (c : Nat) (v : Byte w) (h : m.wf = true) :
    Stored n m (storeBelow n m c v) c v.toNat := by
  intro k
  unfold storeBelow
  split
  next hc => rw [Memory.read_write m c v k h]; split <;> simp_all
  next hc => simp [hc]

theorem wf_storeBelow {w : Nat} (n : Nat) (m : Memory w) (c : Nat) (v : Byte w) (h : m.wf = true) :
    (storeBelow n m c v).wf = true := by
  unfold storeBelow
  split
  · exact Memory.wf_write m c v h
  · exact h

theorem within_storeBelow {w : Nat} (n k : Nat) (m : Memory w) (c : Nat) (v : Byte w) (hc : c < k)
    (h : m.within (min n k) = true) : (storeBelow n m c v).within (min n k) = true := by
  unfold storeBelow
  split
  next hn => exact Memory.within_write _ m c v (by omega) h
  next => exact h

/-! ### Register and RAM access -/

theorem readReg_eq (s : CoreState cfg) (c : Byte cfg.width) :
    s.readReg c = (s.regValue c.toNat, s.report (regFault cfg c.toNat)) := by
  unfold readReg regValue regFault
  split
  · simp
  · rw [raise_eq_report, cell, bitsW_toNat_self]

theorem memRead_eq (s : CoreState cfg) (c : Byte cfg.width) :
    s.memRead c = (s.ramValue c.toNat, s.report (ramFault cfg c.toNat)) := by
  unfold memRead ramValue ramFault
  split
  · simp
  · rw [raise_eq_report, cell, bitsW_toNat_self]

theorem writeReg_eq (s : CoreState cfg) (c v : Byte cfg.width) :
    s.writeReg c v =
      { s.report (regFault cfg c.toNat) with reg := storeBelow cfg.regCount s.reg c.toNat v } := by
  unfold writeReg regFault storeBelow
  split
  · simp
  · rw [raise_eq_report, cell, bitsW_toNat_self]; simp [report]

theorem memWrite_eq (s : CoreState cfg) (c v : Byte cfg.width) :
    s.memWrite c v =
      { s.report (ramFault cfg c.toNat) with ram := storeBelow cfg.ramCells s.ram c.toNat v } := by
  unfold memWrite ramFault storeBelow
  split
  · simp
  · rw [raise_eq_report, cell, bitsW_toNat_self]; simp [report]

@[simp] theorem regValue_report (s : CoreState cfg) (es : List (ErrorRecord cfg.width)) (c : Operand) :
    (s.report es).regValue c = s.regValue c := rfl

@[simp] theorem ramValue_report (s : CoreState cfg) (es : List (ErrorRecord cfg.width)) (c : Operand) :
    (s.report es).ramValue c = s.ramValue c := rfl

/-! ### Operand access -/

/-- The value of a source operand cell by mode. -/
def srcValue (m : SrcMode) (s : CoreState cfg) (c : Byte cfg.width) : Byte cfg.width :=
  match m with
  | .reg => s.regValue c.toNat
  | .imm => c
  | .mem => s.ramValue c.toNat

/-- The errors of a source operand access by mode. -/
def srcFault (m : SrcMode) (c : Byte cfg.width) : List (ErrorRecord cfg.width) :=
  match m with
  | .reg => regFault cfg c.toNat
  | .imm => []
  | .mem => ramFault cfg c.toNat

theorem src_eq (m : SrcMode) (c : Byte cfg.width) (s : CoreState cfg) :
    s.src m c = (s.srcValue m c, s.report (srcFault m c)) := by
  cases m
  · exact readReg_eq s c
  · simp [src, srcValue, srcFault]
  · exact memRead_eq s c

@[simp] theorem srcValue_report (m : SrcMode) (s : CoreState cfg) (es : List (ErrorRecord cfg.width))
    (c : Byte cfg.width) : (s.report es).srcValue m c = s.srcValue m c := by cases m <;> rfl

/-! ### The instruction shapes -/

theorem move_reg_eq (m : SrcMode) (a b : Byte cfg.width) (s : CoreState cfg) :
    s.move .reg m a b =
      { s.report (srcFault m b ++ regFault cfg a.toNat) with
        reg := storeBelow cfg.regCount s.reg a.toNat (s.srcValue m b), pc := s.nextPc } := by
  simp only [move, src_eq, dst, writeReg_eq, report_report]
  rfl

theorem move_mem_eq (m : SrcMode) (a b : Byte cfg.width) (s : CoreState cfg) :
    s.move .mem m a b =
      { s.report (srcFault m b ++ ramFault cfg a.toNat) with
        ram := storeBelow cfg.ramCells s.ram a.toNat (s.srcValue m b), pc := s.nextPc } := by
  simp only [move, src_eq, dst, memWrite_eq, report_report]
  rfl

theorem binary_eq (m : SrcMode) (f : Byte cfg.width → Byte cfg.width → AluResult cfg.width)
    (a b : Byte cfg.width) (s : CoreState cfg) :
    s.binary m f a b =
      { s.report (regFault cfg a.toNat ++ srcFault m b ++ regFault cfg a.toNat) with
        reg := storeBelow cfg.regCount s.reg a.toNat (f (s.regValue a.toNat) (s.srcValue m b)).value
        carry := (f (s.regValue a.toNat) (s.srcValue m b)).flags.carry
        zero := (f (s.regValue a.toNat) (s.srcValue m b)).flags.zero
        sign := (f (s.regValue a.toNat) (s.srcValue m b)).flags.sign
        pc := s.nextPc } := by
  simp only [binary, readReg_eq, src_eq, writeReg_eq, report_report, srcValue_report]
  rfl

theorem unary_eq (f : Byte cfg.width → AluResult cfg.width) (a : Byte cfg.width) (s : CoreState cfg) :
    s.unary f a =
      { s.report (regFault cfg a.toNat ++ regFault cfg a.toNat) with
        reg := storeBelow cfg.regCount s.reg a.toNat (f (s.regValue a.toNat)).value
        carry := (f (s.regValue a.toNat)).flags.carry
        zero := (f (s.regValue a.toNat)).flags.zero
        sign := (f (s.regValue a.toNat)).flags.sign
        pc := s.nextPc } := by
  simp only [unary, readReg_eq, writeReg_eq, report_report]
  rfl

theorem compare_eq (m : SrcMode) (a b : Byte cfg.width) (s : CoreState cfg) :
    s.compare m a b =
      ((s.report (regFault cfg a.toNat ++ srcFault m b)).setFlags
        (aluResult (subW cfg.subCarryBZero (s.regValue a.toNat) (s.srcValue m b))).flags).advance := by
  simp only [compare, readReg_eq, src_eq, report_report, srcValue_report]

/-! COND of R290, one lemma per mnemonic. -/

@[simp] theorem taken_always (s : CoreState cfg) : s.taken .always = true := rfl
@[simp] theorem taken_carrySet (s : CoreState cfg) : s.taken .carrySet = s.carry := rfl
@[simp] theorem taken_carryClear (s : CoreState cfg) : s.taken .carryClear = !s.carry := rfl
@[simp] theorem taken_equal (s : CoreState cfg) : s.taken .equal = s.zero := rfl
@[simp] theorem taken_notEqual (s : CoreState cfg) : s.taken .notEqual = !s.zero := rfl

theorem taken_greater (s : CoreState cfg) :
    s.taken .greater =
      if cfg.cmpOrder = .signedFlags then !s.zero && !s.sign else s.carry && !s.zero := by
  unfold taken Cond.holds; cases cfg.cmpOrder <;> rfl

theorem taken_less (s : CoreState cfg) :
    s.taken .less = if cfg.cmpOrder = .signedFlags then s.sign else !s.carry := by
  unfold taken Cond.holds; cases cfg.cmpOrder <;> rfl

theorem jumpAbs_eq (c : Cond) (a : Byte cfg.width) (s : CoreState cfg) :
    s.jumpAbs c a =
      if s.taken c then (s.report (regFault cfg a.toNat)).setPc (s.regValue a.toNat) else s.advance := by
  simp only [jumpAbs, readReg_eq]

theorem jumpRel_eq (c : Cond) (a : Byte cfg.width) (s : CoreState cfg) :
    s.jumpRel c a = { s with pc := if s.taken c then s.relTarget a else s.nextPc } := by
  unfold jumpRel; cases s.taken c <;> rfl

theorem output_eq (m : SrcMode) (a : Byte cfg.width) (s : CoreState cfg) :
    s.output m a = ((s.report (srcFault m a)).emit (.out (s.srcValue m a))).advance := by
  simp only [output, src_eq]

/-! ### Fetch -/

theorem fetch_eq (s : CoreState cfg) :
    s.fetch = { s.report (ramFault cfg s.pc.toNat) with ir := s.ramValue s.pc.toNat } := by
  simp only [fetch, memRead_eq]

end Sys2Proof.Machine.CoreState
end

