-- ==== Sys2Proof/Laws/PerInstr.lean ====
section
/-! SUPPORT. Statements made for every instruction as syntax, with one lemma per constructor. -/

namespace Sys2Proof.Laws

/-- The canonical key of an instruction (30_encoding.md R111, R134) encodes to the same cells, under every OPCODE_MAP,
keeps the arity's operands and is its own canonical key. -/
def CanonicalKey.Statement (i : Instr) : Prop :=
  (∀ cfg : Config, encode cfg i.canonical = encode cfg i) ∧ i.canonical.canonical = i.canonical

theorem CanonicalKey.hlt : CanonicalKey.Statement (.hlt) := ⟨fun _ => rfl, rfl⟩
theorem CanonicalKey.movRR (a b : Operand) : CanonicalKey.Statement (.movRR a b) := ⟨fun _ => rfl, rfl⟩
theorem CanonicalKey.movRI (a b : Operand) : CanonicalKey.Statement (.movRI a b) := ⟨fun _ => rfl, rfl⟩
theorem CanonicalKey.movRM (a b : Operand) : CanonicalKey.Statement (.movRM a b) := ⟨fun _ => rfl, rfl⟩
theorem CanonicalKey.movMR (a b : Operand) : CanonicalKey.Statement (.movMR a b) := ⟨fun _ => rfl, rfl⟩
theorem CanonicalKey.movMI (a b : Operand) : CanonicalKey.Statement (.movMI a b) := ⟨fun _ => rfl, rfl⟩
theorem CanonicalKey.addRR (a b : Operand) : CanonicalKey.Statement (.addRR a b) := ⟨fun _ => rfl, rfl⟩
theorem CanonicalKey.addRI (a b : Operand) : CanonicalKey.Statement (.addRI a b) := ⟨fun _ => rfl, rfl⟩
theorem CanonicalKey.addRM (a b : Operand) : CanonicalKey.Statement (.addRM a b) := ⟨fun _ => rfl, rfl⟩
theorem CanonicalKey.subRR (a b : Operand) : CanonicalKey.Statement (.subRR a b) := ⟨fun _ => rfl, rfl⟩
theorem CanonicalKey.subRI (a b : Operand) : CanonicalKey.Statement (.subRI a b) := ⟨fun _ => rfl, rfl⟩
theorem CanonicalKey.subRM (a b : Operand) : CanonicalKey.Statement (.subRM a b) := ⟨fun _ => rfl, rfl⟩
theorem CanonicalKey.mulRR (a b : Operand) : CanonicalKey.Statement (.mulRR a b) := ⟨fun _ => rfl, rfl⟩
theorem CanonicalKey.mulRI (a b : Operand) : CanonicalKey.Statement (.mulRI a b) := ⟨fun _ => rfl, rfl⟩
theorem CanonicalKey.mulRM (a b : Operand) : CanonicalKey.Statement (.mulRM a b) := ⟨fun _ => rfl, rfl⟩
theorem CanonicalKey.incR (a : Operand) : CanonicalKey.Statement (.incR a) := ⟨fun _ => rfl, rfl⟩
theorem CanonicalKey.decR (a : Operand) : CanonicalKey.Statement (.decR a) := ⟨fun _ => rfl, rfl⟩
theorem CanonicalKey.cmpRR (a b : Operand) : CanonicalKey.Statement (.cmpRR a b) := ⟨fun _ => rfl, rfl⟩
theorem CanonicalKey.cmpRI (a b : Operand) : CanonicalKey.Statement (.cmpRI a b) := ⟨fun _ => rfl, rfl⟩
theorem CanonicalKey.cmpRM (a b : Operand) : CanonicalKey.Statement (.cmpRM a b) := ⟨fun _ => rfl, rfl⟩
theorem CanonicalKey.jmpR (a : Operand) : CanonicalKey.Statement (.jmpR a) := ⟨fun _ => rfl, rfl⟩
theorem CanonicalKey.jmpD (a : Operand) : CanonicalKey.Statement (.jmpD a) := ⟨fun _ => rfl, rfl⟩
theorem CanonicalKey.jcR (a : Operand) : CanonicalKey.Statement (.jcR a) := ⟨fun _ => rfl, rfl⟩
theorem CanonicalKey.jcD (a : Operand) : CanonicalKey.Statement (.jcD a) := ⟨fun _ => rfl, rfl⟩
theorem CanonicalKey.jncR (a : Operand) : CanonicalKey.Statement (.jncR a) := ⟨fun _ => rfl, rfl⟩
theorem CanonicalKey.jncD (a : Operand) : CanonicalKey.Statement (.jncD a) := ⟨fun _ => rfl, rfl⟩
theorem CanonicalKey.jeqR (a : Operand) : CanonicalKey.Statement (.jeqR a) := ⟨fun _ => rfl, rfl⟩
theorem CanonicalKey.jzR (a : Operand) : CanonicalKey.Statement (.jzR a) := ⟨fun _ => rfl, rfl⟩
theorem CanonicalKey.jeqD (a : Operand) : CanonicalKey.Statement (.jeqD a) := ⟨fun _ => rfl, rfl⟩
theorem CanonicalKey.jzD (a : Operand) : CanonicalKey.Statement (.jzD a) := ⟨fun _ => rfl, rfl⟩
theorem CanonicalKey.jneR (a : Operand) : CanonicalKey.Statement (.jneR a) := ⟨fun _ => rfl, rfl⟩
theorem CanonicalKey.jnzR (a : Operand) : CanonicalKey.Statement (.jnzR a) := ⟨fun _ => rfl, rfl⟩
theorem CanonicalKey.jneD (a : Operand) : CanonicalKey.Statement (.jneD a) := ⟨fun _ => rfl, rfl⟩
theorem CanonicalKey.jnzD (a : Operand) : CanonicalKey.Statement (.jnzD a) := ⟨fun _ => rfl, rfl⟩
theorem CanonicalKey.jgtrR (a : Operand) : CanonicalKey.Statement (.jgtrR a) := ⟨fun _ => rfl, rfl⟩
theorem CanonicalKey.jgtrD (a : Operand) : CanonicalKey.Statement (.jgtrD a) := ⟨fun _ => rfl, rfl⟩
theorem CanonicalKey.jlssR (a : Operand) : CanonicalKey.Statement (.jlssR a) := ⟨fun _ => rfl, rfl⟩
theorem CanonicalKey.jlssD (a : Operand) : CanonicalKey.Statement (.jlssD a) := ⟨fun _ => rfl, rfl⟩
theorem CanonicalKey.outR (a : Operand) : CanonicalKey.Statement (.outR a) := ⟨fun _ => rfl, rfl⟩
theorem CanonicalKey.outM (a : Operand) : CanonicalKey.Statement (.outM a) := ⟨fun _ => rfl, rfl⟩
theorem CanonicalKey.nop : CanonicalKey.Statement (.nop) := ⟨fun _ => rfl, rfl⟩

end Sys2Proof.Laws
end

