-- ==== Sys2Proof/Laws/Step.lean ====
section
/-! SUPPORT. What one step is (40_execution_cycle.md R160 to R162, R167), said once: with an assigned opcode it is
`exec` of that variant's instruction on the state the fetches leave; with any other it reports and advances. -/

namespace Sys2Proof.Machine.CoreState

variable {cfg : Config}

/-- The errors of the operand fetches of a variant, A before B. -/
def operandFault (v : Variant) (s : CoreState cfg) : List (ErrorRecord cfg.width) :=
  (if 1 ≤ v.arity then ramFault cfg (s.operandAddr 1).toNat else []) ++
    (if v.arity = 2 then ramFault cfg (s.operandAddr 2).toNat else [])

theorem fetchA_eq (v : Variant) (s : CoreState cfg) :
    s.fetchA v =
      (if 1 ≤ v.arity then s.ramValue (s.operandAddr 1).toNat else 0,
        s.report (if 1 ≤ v.arity then ramFault cfg (s.operandAddr 1).toNat else [])) := by
  unfold fetchA; split <;> simp [memRead_eq]

theorem fetchB_eq (v : Variant) (s : CoreState cfg) :
    s.fetchB v =
      (if v.arity = 2 then s.ramValue (s.operandAddr 2).toNat else 0,
        s.report (if v.arity = 2 then ramFault cfg (s.operandAddr 2).toNat else [])) := by
  unfold fetchB; split <;> simp [memRead_eq]

@[simp] theorem operandAddr_zero (s : CoreState cfg) : s.operandAddr 0 = s.pc := by simp [operandAddr]

@[simp] theorem operandAddr_report (es : List (ErrorRecord cfg.width)) (k : Nat) (s : CoreState cfg) :
    (s.report es).operandAddr k = s.operandAddr k := rfl

/-- The state the fetches of a variant leave. -/
def fetched (v : Variant) (s : CoreState cfg) : CoreState cfg :=
  { s.report (ramFault cfg s.pc.toNat ++ s.operandFault v) with ir := s.ramValue s.pc.toNat }

/-- An operand cell the variant does not use does not matter. -/
theorem instr_congr (v : Variant) {a a' b b' : Operand} (ha : 1 ≤ v.arity → a = a') (hb : v.arity = 2 → b = b') :
    v.instr a b = v.instr a' b' := by
  cases v <;> simp_all [Variant.instr, Variant.arity]

/-- A step whose opcode cell holds a variant's opcode. -/
theorem step_of_opcode (s : CoreState cfg) (v : Variant) (h : cfg.opcode v = (s.ramValue s.pc.toNat).toNat) :
    step ⟨cfg, s⟩ = notifyResult
      (exec (v.instr (s.ramValue (s.operandAddr 1).toNat).toNat (s.ramValue (s.operandAddr 2).toNat).toNat)
        ⟨cfg, s.fetched v⟩) := by
  have hf := fetch_eq s
  have hd : decodeOpcode cfg s.fetch.ir.toNat = some v := by
    rw [hf]; exact h ▸ decodeOpcode_opcode cfg v
  have hi : v.instr (s.fetch.fetchA v).1.toNat ((s.fetch.fetchA v).2.fetchB v).1.toNat =
      v.instr (s.ramValue (s.operandAddr 1).toNat).toNat (s.ramValue (s.operandAddr 2).toNat).toNat :=
    instr_congr v
      (fun h1 => by rw [fetchA_eq]; simp only [h1, if_true, hf]; rfl)
      (fun h2 => by rw [fetchB_eq]; simp only [h2, if_true, hf, fetchA_eq]; rfl)
  have hs : ((s.fetch.fetchA v).2.fetchB v).2 = s.fetched v := by
    rw [fetchB_eq, fetchA_eq, hf]
    simp [fetched, report, operandFault, operandAddr]
  simp only [step, stepInstruction, hd, hi, hs]

/-- A step whose opcode cell holds no variant's opcode. -/
theorem step_of_unassigned (s : CoreState cfg) (h : ∀ v : Variant, cfg.opcode v ≠ (s.ramValue s.pc.toNat).toNat) :
    step ⟨cfg, s⟩ = .next ⟨cfg,
      (CoreState.unknownOpcode
        { s.report (ramFault cfg s.pc.toNat) with ir := s.ramValue s.pc.toNat }).notifyStep⟩ := by
  have hf := fetch_eq s
  have hd : decodeOpcode cfg s.fetch.ir.toNat = none := by
    rw [hf]; exact (decodeOpcode_eq_none _ _).2 h
  simp only [step, stepInstruction, hd]
  rw [hf]

end Sys2Proof.Machine.CoreState
end

