-- ==== Sys2Proof/Tests/Slice0.lean ====
section
/-! SUPPORT. Small tests: what `WellFormed` refuses, every constructor's decoding from a word written out from R112, one
or two single steps per instruction, host commands and the assembler, with expected results from 95_test_vectors.md and
the rules named; and for each statement of Obligations.lean with hypotheses, a concrete case that meets them. -/

namespace Sys2Proof.Tests

open Sys2Proof Sys2Proof.Machine Sys2Proof.Machine.CoreState

/-! ### Helpers -/

/-- The default configuration with another RAM size. -/
def ramSize (m : Nat) : Config := { Config.default with ramCells := m }

/-- The default configuration at width 5, where opcodes 32 to 36 do not fit. -/
def narrow : Config := { Config.default with width := 5, width_pos := by decide }

/-- The smallest instance whose RAM covers its address space: W = 1, R = 1, M = 2. -/
def tiny : Config :=
  { Config.default with width := 1, regCount := 1, ramCells := 2, width_pos := by decide, regCount_pos := by decide }

/-- The default configuration with both switches the other way (R199, R290). -/
def switched : Config := { Config.default with subCarryBZero := false, cmpOrder := .unsignedCarry }

/-- Write cells given as numbers. -/
def put (w : Nat) (cells : List (Nat × Nat)) : Memory w :=
  cells.foldl (fun m e => m.write e.1 (bitsW w e.2)) []

/-- An instance with `cells` at pc, pc+1, … and more RAM and register cells given as numbers. -/
def boot (cfg : Config) (pc : Nat) (cells : List Nat) (regs ram : List (Nat × Nat)) (czs : Bool × Bool × Bool) :
    CoreState cfg :=
  { CoreState.initial cfg with
    pc := bitsW cfg.width pc
    reg := put cfg.width regs
    ram := put cfg.width ((cells.zipIdx.map (fun c => ((pc + c.2) % 2 ^ cfg.width, c.1))) ++ ram)
    carry := czs.1, zero := czs.2.1, sign := czs.2.2 }

/-- Some view of the next state. -/
def view {α : Type} (r : Result) (f : State → α) : Option α :=
  match r with
  | .next t => some (f t)
  | .fault _ => none
  | .refused _ => none

/-- The next state, if the result is one. -/
def next? (r : Result) : Option State := view r id

/-- The flags, as the vectors write them. -/
def czs (t : State) : Bool × Bool × Bool := (t.core.carry, t.core.zero, t.core.sign)
/-- A register as a number. -/
def reg (k : Nat) (t : State) : Nat := (t.core.reg.read k).toNat
/-- A RAM cell as a number. -/
def ram (k : Nat) (t : State) : Nat := (t.core.ram.read k).toNat
/-- The program counter as a number. -/
def pc (t : State) : Nat := t.core.pc.toNat

/-- Three clear flags. -/
abbrev off : Bool × Bool × Bool := (false, false, false)

/-- One step of an instance of the default configuration, with these cells at pc 0. -/
def run1 (cells : List Nat) (regs ram : List (Nat × Nat)) (flags : Bool × Bool × Bool) : Result :=
  step ⟨Config.default, boot Config.default 0 cells regs ram flags⟩

/-! ### WellFormed refuses what three cells cannot hold (R9, R100, R113) -/

theorem test_wellFormed_accepts_boundary : Instr.WellFormed Config.default (.movRI 255 255) := by decide
theorem test_wellFormed_refuses_operandA : ¬ Instr.WellFormed Config.default (.movRI 256 0) := by decide
theorem test_wellFormed_refuses_operandB : ¬ Instr.WellFormed Config.default (.movRI 0 256) := by decide
theorem test_wellFormed_refuses_opcode : ¬ Instr.WellFormed narrow .nop := by decide
theorem test_wellFormed_opcode_boundary : Instr.WellFormed narrow (.jlssR 31) ↔ False := by decide
theorem test_wellFormed_opcode_fits : Instr.WellFormed narrow (.jgtrD 31) := by decide

/-! ### Decoding: every constructor's word, opcode from R112's table, then cell A, then cell B -/

theorem test_decode_data_movement :
    decodeTableWord 24 0b000000011000001100100110 = some (.movRR 131 38) ∧
    decodeTableWord 24 0b000000101000001100100110 = some (.movRI 131 38) ∧
    decodeTableWord 24 0b000000111000001100100110 = some (.movRM 131 38) ∧
    decodeTableWord 24 0b000001001000001100100110 = some (.movMR 131 38) ∧
    decodeTableWord 24 0b000001011000001100100110 = some (.movMI 131 38) := by decide

theorem test_decode_add_sub :
    decodeTableWord 24 0b000001101000001100100110 = some (.addRR 131 38) ∧
    decodeTableWord 24 0b000001111000001100100110 = some (.addRI 131 38) ∧
    decodeTableWord 24 0b000010001000001100100110 = some (.addRM 131 38) ∧
    decodeTableWord 24 0b000010011000001100100110 = some (.subRR 131 38) ∧
    decodeTableWord 24 0b000010101000001100100110 = some (.subRI 131 38) ∧
    decodeTableWord 24 0b000010111000001100100110 = some (.subRM 131 38) := by decide

theorem test_decode_mul_inc_dec :
    decodeTableWord 24 0b000011001000001100100110 = some (.mulRR 131 38) ∧
    decodeTableWord 24 0b000011011000001100100110 = some (.mulRI 131 38) ∧
    decodeTableWord 24 0b000011101000001100100110 = some (.mulRM 131 38) ∧
    decodeTableWord 24 0b000011111000001100000000 = some (.incR 131) ∧
    decodeTableWord 24 0b000100001000001100000000 = some (.decR 131) := by decide

theorem test_decode_cmp :
    decodeTableWord 24 0b000100011000001100100110 = some (.cmpRR 131 38) ∧
    decodeTableWord 24 0b000100101000001100100110 = some (.cmpRI 131 38) ∧
    decodeTableWord 24 0b000100111000001100100110 = some (.cmpRM 131 38) := by decide

theorem test_decode_jumps :
    decodeTableWord 24 0b000101001000001100000000 = some (.jmpR 131) ∧
    decodeTableWord 24 0b000101011000001100000000 = some (.jmpD 131) ∧
    decodeTableWord 24 0b000101101000001100000000 = some (.jcR 131) ∧
    decodeTableWord 24 0b000101111000001100000000 = some (.jcD 131) ∧
    decodeTableWord 24 0b000110001000001100000000 = some (.jncR 131) ∧
    decodeTableWord 24 0b000110011000001100000000 = some (.jncD 131) ∧
    decodeTableWord 24 0b000110101000001100000000 = some (.jeqR 131) ∧
    decodeTableWord 24 0b000110111000001100000000 = some (.jeqD 131) ∧
    decodeTableWord 24 0b000111001000001100000000 = some (.jneR 131) ∧
    decodeTableWord 24 0b000111011000001100000000 = some (.jneD 131) := by decide

theorem test_decode_order_jumps :
    decodeTableWord 24 0b000111101000001100000000 = some (.jgtrR 131) ∧
    decodeTableWord 24 0b000111111000001100000000 = some (.jgtrD 131) ∧
    decodeTableWord 24 0b001000001000001100000000 = some (.jlssR 131) ∧
    decodeTableWord 24 0b001000011000001100000000 = some (.jlssD 131) := by decide

theorem test_decode_output_halt :
    decodeTableWord 24 0b001000101000001100000000 = some (.outR 131) ∧
    decodeTableWord 24 0b001000111000001100000000 = some (.outM 131) ∧
    decodeTableWord 24 0b000000000000000000000000 = some .hlt ∧
    decodeTableWord 24 0b001001000000000000000000 = some .nop := by decide

/-- R111, R134: the words of the alias keys are those of `JEQ` and `JNE`, and decode to them. -/
theorem test_decode_aliases :
    (encode Config.default (.jzR 131)).map BitVec.toNat = [0b00011010, 0b10000011, 0b00000000] ∧
    decodeTableWord 24 0b000110101000001100000000 = some (Instr.jzR 131).canonical ∧
    (encode Config.default (.jzD 131)).map BitVec.toNat = [0b00011011, 0b10000011, 0b00000000] ∧
    decodeTableWord 24 0b000110111000001100000000 = some (Instr.jzD 131).canonical ∧
    (encode Config.default (.jnzR 131)).map BitVec.toNat = [0b00011100, 0b10000011, 0b00000000] ∧
    decodeTableWord 24 0b000111001000001100000000 = some (Instr.jnzR 131).canonical ∧
    (encode Config.default (.jnzD 131)).map BitVec.toNat = [0b00011101, 0b10000011, 0b00000000] ∧
    decodeTableWord 24 0b000111011000001100000000 = some (Instr.jnzD 131).canonical := by decide

/-- R102, R114: unused operand cells do not matter; 37 is the first unassigned value. -/
theorem test_decode_unused_and_unassigned :
    decodeTableWord 24 0b000011110000001010101011 = some (.incR 2) ∧
    decodeTableWord 24 0b000000001111111111111111 = some .hlt ∧
    decodeTableWord 24 0b001001010000000000000000 = none := by decide

/-- R134: `Decode` reads an unused operand as its cell value. -/
theorem test_decode_reads_unused_cells :
    decode Config.default [0x0F#8, 0x02#8, 0xAB#8] = .ok (⟨.incR 2, 0x02#8, 0xAB#8⟩, []) ∧
    decode Config.default [0x00#8, 0x12#8, 0x34#8] = .ok (⟨.hlt, 0x12#8, 0x34#8⟩, []) := ⟨rfl, rfl⟩

/-- The fetch of a placed table word runs that instruction (the host's `withFetchWord`). -/
theorem test_withFetchWord :
    view (step (State.reset.withFetchWord 24 0b000000100000001100000101)) (fun t => (reg 3 t, pc t)) = some (5, 3) := by
  decide

/-! ### Data movement (95_test_vectors.md 2.2) -/

theorem test_movRR :
    view (run1 [0x01, 0x00, 0x01] [(1, 3)] [] off) (fun t => (reg 0 t, reg 1 t, pc t)) =
      some (3, 3, 3) := by decide
/-- MOV writes no flag. -/
theorem test_movRI :
    view (run1 [0x02, 0x03, 0xFD] [] [] (true, true, true)) (fun t => (reg 3 t, czs t, pc t)) =
      some (0xFD, (true, true, true), 3) := by decide
theorem test_movRM :
    view (run1 [0x03, 0x02, 0x80] [] [(0x80, 0x0C)] off) (fun t => (reg 2 t, pc t)) =
      some (0x0C, 3) := by decide
theorem test_movRM_own_cell :
    view (run1 [0x03, 0x02, 0x02] [] [] off) (fun t => reg 2 t) =
      some 0x02 := by decide
theorem test_movMR :
    view (run1 [0x04, 0x80, 0x00] [(0, 0x0C)] [] off) (fun t => (ram 0x80 t, pc t)) =
      some (0x0C, 3) := by decide
theorem test_movMI :
    view (run1 [0x05, 0x05, 0x03] [] [] off) (fun t => (ram 5 t, pc t)) =
      some (3, 3) := by decide
/-- R = 4: no register written, ERR_REG. -/
theorem test_mov_bad_register :
    view (run1 [0x02, 0x07, 0x01] [] [] off) (fun t => (t.core.reg.length, t.core.errors.length, pc t)) = some (0, 1, 3) := by
  decide
/-- M = 128: RAM unchanged, ERR_ADDR(0xF0). -/
theorem test_mov_bad_address :
    next? (step ⟨ramSize 128, boot (ramSize 128) 0 [0x04, 0xF0, 0x00] [(0, 9)] [] off⟩) = some ⟨ramSize 128,
      { boot (ramSize 128) 0 [0x04, 0xF0, 0x00] [(0, 9)] [] off with
        ir := 4#8, pc := 3#8, errors := [.errAddr 0xF0#8], events := [.error (.errAddr 0xF0#8), .step 3#8] }⟩ := by
  decide

/-! ### Arithmetic and compare (95_test_vectors.md 2.3) -/

theorem test_addRR :
    view (run1 [0x06, 0x00, 0x01] [(0, 5), (1, 3)] [] (true, true, true)) (fun t => (reg 0 t, czs t, pc t)) =
      some (8, (false, false, false), 3) := by decide
theorem test_addRR_same_register :
    view (run1 [0x06, 0x00, 0x00] [(0, 0x41)] [] off) (fun t => (reg 0 t, czs t, pc t)) =
      some (0x82, (false, false, true), 3) := by decide
theorem test_addRI :
    view (run1 [0x07, 0x00, 0xFF] [(0, 5)] [] off) (fun t => (reg 0 t, czs t, pc t)) =
      some (4, (true, false, false), 3) := by decide
theorem test_addRM :
    view (run1 [0x08, 0x00, 0x40] [(0, 0x10)] [(0x40, 0xF0)] off) (fun t => (reg 0 t, czs t, pc t)) =
      some (0, (true, true, false), 3) := by decide
theorem test_subRR :
    view (run1 [0x09, 0x00, 0x01] [(0, 5), (1, 3)] [] off) (fun t => (reg 0 t, czs t, pc t)) =
      some (2, (true, false, false), 3) := by decide
theorem test_subRR_same_register :
    view (run1 [0x09, 0x02, 0x02] [(2, 0x33)] [] off) (fun t => (reg 2 t, czs t, pc t)) =
      some (0, (true, true, false), 3) := by decide
theorem test_subRI :
    view (run1 [0x0A, 0x01, 0x01] [] [] (true, true, false)) (fun t => (reg 1 t, czs t, pc t)) =
      some (0xFF, (false, false, true), 3) := by decide
theorem test_subRM :
    view (run1 [0x0B, 0x00, 0x41] [(0, 0x20)] [(0x41, 0x21)] off) (fun t => (reg 0 t, czs t, pc t)) =
      some (0xFF, (false, false, true), 3) := by decide
theorem test_mulRR :
    view (run1 [0x0C, 0x00, 0x01] [(0, 6), (1, 7)] [] off) (fun t => (reg 0 t, czs t, pc t)) =
      some (0x2A, (false, false, false), 3) := by decide
theorem test_mulRI :
    view (run1 [0x0D, 0x01, 0xFF] [(1, 5)] [] off) (fun t => (reg 1 t, czs t, pc t)) =
      some (0xFB, (false, false, true), 3) := by decide
theorem test_mulRI_zero_flag :
    view (run1 [0x0D, 0x00, 0x10] [(0, 0x10)] [] off) (fun t => (reg 0 t, czs t, pc t)) =
      some (0, (true, false, false), 3) := by decide
theorem test_mulRM :
    view (run1 [0x0E, 0x00, 0x40] [(0, 3)] [(0x40, 5)] off) (fun t => (reg 0 t, czs t, pc t)) =
      some (0x0F, (false, false, false), 3) := by decide
theorem test_incR :
    view (run1 [0x0F, 0x02, 0x00] [(2, 0xFF)] [] off) (fun t => (reg 2 t, czs t, pc t)) =
      some (0, (true, true, false), 3) := by decide
theorem test_decR :
    view (run1 [0x10, 0x01, 0x00] [] [] off) (fun t => (reg 1 t, czs t, pc t)) =
      some (0xFF, (false, false, true), 3) := by decide
theorem test_decR_carry :
    view (run1 [0x10, 0x01, 0x00] [(1, 4)] [] off) (fun t => (reg 1 t, czs t, pc t)) =
      some (3, (true, false, false), 3) := by decide
theorem test_cmpRR :
    view (run1 [0x11, 0x00, 0x01] [(0, 0x80), (1, 1)] [] (false, true, true)) (fun t => (reg 0 t, reg 1 t, czs t)) =
      some (0x80, 1, (true, false, false)) := by decide
/-- C from SUB_CARRY_B_ZERO. -/
theorem test_cmpRI :
    view (run1 [0x12, 0x00, 0x00] [(0, 0xFA)] [] off) (fun t => (reg 0 t, czs t)) =
      some (0xFA, (true, false, true)) := by decide
theorem test_cmpRM :
    view (run1 [0x13, 0x00, 0x40] [(0, 3)] [(0x40, 5)] (true, true, false)) (fun t => (reg 0 t, czs t)) =
      some (3, (false, false, true)) := by decide
/-- SUB_CARRY_B_ZERO = false (R199). -/
theorem test_subRI_switch :
    view (step ⟨switched, boot switched 0 [0x0A, 0x00, 0x00] [(0, 7)] [] off⟩) (fun t => (reg 0 t, czs t)) =
      some (7, off) := by decide
/-- R362: three errors in access order; no register is written; the flags are. -/
theorem test_add_error_order :
    next? (step ⟨ramSize 128, boot (ramSize 128) 0 [0x08, 0x09, 0xF0] [] [] off⟩) = some ⟨ramSize 128,
      { boot (ramSize 128) 0 [0x08, 0x09, 0xF0] [] [] off with
        ir := 8#8, zero := true, pc := 3#8, errors := [.errReg 9#8, .errAddr 0xF0#8, .errReg 9#8]
        events := [.error (.errReg 9#8), .error (.errAddr 0xF0#8), .error (.errReg 9#8), .step 3#8] }⟩ := by decide

/-! ### Control flow (95_test_vectors.md 2.4) -/

/-- One step at `p`, and the pc after it. -/
def jump (cfg : Config) (p : Nat) (cells : List Nat) (regs : List (Nat × Nat)) (flags : Bool × Bool × Bool) : Option Nat :=
  view (step ⟨cfg, boot cfg p cells regs [] flags⟩) pc

theorem test_jmpR :
    jump Config.default 0x15 [0x14, 0x02, 0x00] [(2, 0x18)] off = some 0x18 := by decide
theorem test_jmpD :
    jump Config.default 3 [0x15, 0xFF, 0x00] [] off = some 0 ∧
    jump Config.default 6 [0x15, 0x00, 0x00] [] off = some 6 ∧
    jump Config.default 0 [0x15, 0x7F, 0x00] [] off = some 0x7D := by decide
theorem test_jmpD_wraps :
    jump Config.default 0 [0x15, 0xFF, 0x00] [] off = some 0xFD ∧
    jump Config.default 0 [0x15, 0x80, 0x00] [] off = some 0x80 := by decide
theorem test_jcR :
    jump Config.default 0 [0x16, 0x00, 0x00] [(0, 0x30)] (true, false, false) = some 0x30 ∧
    jump Config.default 0 [0x16, 0x09, 0x00] [] off = some 3 := by decide
theorem test_jcD :
    jump Config.default 6 [0x17, 0x05, 0x00] [] off = some 9 ∧
    jump Config.default 6 [0x17, 0x05, 0x00] [] (true, false, false) = some 21 := by decide
theorem test_jncR :
    jump Config.default 9 [0x18, 0x01, 0x00] [] off = some 0 ∧
    jump Config.default 9 [0x18, 0x01, 0x00] [] (true, false, false) = some 12 := by decide
theorem test_jncD :
    jump Config.default 12 [0x19, 0xFE, 0x00] [] off = some 6 ∧
    jump Config.default 12 [0x19, 0xFE, 0x00] [] (true, false, false) = some 15 := by decide
theorem test_jeqR :
    jump Config.default 0 [0x1A, 0x03, 0x00] [(3, 0x0F)] (false, true, false) = some 0x0F ∧
    jump Config.default 0 [0x1A, 0x03, 0x00] [(3, 0x0F)] (true, false, true) = some 3 := by decide
theorem test_jeqD :
    jump Config.default 9 [0x1B, 0x02, 0x00] [] (false, true, false) = some 15 ∧
    jump Config.default 9 [0x1B, 0x02, 0x00] [] (true, false, true) = some 12 := by decide
theorem test_jneR :
    jump Config.default 0 [0x1C, 0x00, 0x00] [(0, 6)] off = some 6 ∧
    jump Config.default 0 [0x1C, 0x00, 0x00] [(0, 6)] (false, true, false) = some 3 := by decide
theorem test_jneD :
    jump Config.default 12 [0x1D, 0xFE, 0x00] [] off = some 6 ∧
    jump Config.default 12 [0x1D, 0xFE, 0x00] [] (false, true, false) = some 15 := by decide
theorem test_jgtrR :
    jump Config.default 0 [0x1E, 0x01, 0x00] [(1, 0x21)] off = some 0x21 ∧
    jump Config.default 0 [0x1E, 0x01, 0x00] [(1, 0x21)] (false, false, true) = some 3 ∧
    jump switched 0 [0x1E, 0x01, 0x00] [(1, 0x21)] off = some 3 := by decide
theorem test_jgtrD :
    jump Config.default 6 [0x1F, 0x02, 0x00] [] (true, false, false) = some 12 ∧
    jump switched 6 [0x1F, 0x02, 0x00] [] (true, false, false) = some 12 ∧
    jump Config.default 6 [0x1F, 0x02, 0x00] [] (true, true, false) = some 9 ∧
    jump switched 6 [0x1F, 0x02, 0x00] [] (true, true, false) = some 9 := by decide
theorem test_jlssR :
    jump Config.default 0 [0x20, 0x01, 0x00] [(1, 0x21)] (false, false, true) = some 0x21 ∧
    jump Config.default 0 [0x20, 0x01, 0x00] [(1, 0x21)] off = some 3 ∧
    jump switched 0 [0x20, 0x01, 0x00] [(1, 0x21)] off = some 0x21 := by decide
theorem test_jlssD :
    jump Config.default 12 [0x21, 0x02, 0x00] [] (false, false, true) = some 18 ∧
    jump switched 12 [0x21, 0x02, 0x00] [] (false, false, true) = some 18 ∧
    jump Config.default 12 [0x21, 0x02, 0x00] [] (true, false, true) = some 18 ∧
    jump switched 12 [0x21, 0x02, 0x00] [] (true, false, true) = some 15 := by decide
/-- R299 to R302: the alias keys jump as the keys they alias. -/
theorem test_aliases_execute :
    view (exec (.jzR 3) ⟨Config.default, boot Config.default 0 [] [(3, 15)] [] (false, true, false)⟩) pc = some 15 ∧
    view (exec (.jzD 2) ⟨Config.default, boot Config.default 9 [] [] [] (false, true, false)⟩) pc = some 15 ∧
    view (exec (.jnzR 0) ⟨Config.default, boot Config.default 0 [] [(0, 6)] [] off⟩) pc = some 6 ∧
    view (exec (.jnzD 0xFE) ⟨Config.default, boot Config.default 12 [] [] [] off⟩) pc = some 6 := by decide
/-- A taken jump through a register that does not exist goes to 0 and reports ERR_REG; no jump writes a flag. -/
theorem test_jump_bad_register :
    view (run1 [0x16, 0x09, 0x00] [] [] (true, true, true)) (fun t => (pc t, t.core.errors.length, czs t)) =
      some (0, 1, (true, true, true)) := by decide

/-! ### Output, halt, no-op, fetch (95_test_vectors.md 2.5, 2.6) -/

theorem test_outR :
    next? (step ⟨Config.default, boot Config.default 9 [0x22, 0x00, 0x00] [(0, 8)] [] off⟩) = some ⟨Config.default,
      { boot Config.default 9 [0x22, 0x00, 0x00] [(0, 8)] [] off with
        ir := 0x22#8, pc := 12#8, events := [.out 8#8, .step 12#8] }⟩ := by decide
theorem test_outM :
    next? (step ⟨ramSize 128, boot (ramSize 128) 0 [0x23, 0xF0, 0x00] [] [] off⟩) = some ⟨ramSize 128,
      { boot (ramSize 128) 0 [0x23, 0xF0, 0x00] [] [] off with
        ir := 0x23#8, pc := 3#8, errors := [.errAddr 0xF0#8]
        events := [.error (.errAddr 0xF0#8), .out 0#8, .step 3#8] }⟩ := by decide
/-- V-STEP-1: the host's `step` on a fresh CORE executes HLT. -/
theorem test_hlt :
    next? (step State.reset) = some ⟨Config.default,
      { CoreState.initial Config.default with engine := .halted, pc := 3#8, events := [.step 3#8] }⟩ := by decide
theorem test_nop_wraps :
    view (step ⟨Config.default, boot Config.default 0xFD [0x24, 0, 0] [] [] off⟩) (fun t => (pc t, t.core.errors.length)) =
      some (0, 0) := by decide
/-- ram[0] = 0x25: ERR_OPCODE with the opcode and the pc, then `step(3)`. -/
theorem test_unknown_opcode :
    next? (step ⟨Config.default, boot Config.default 0 [0x25] [] [] off⟩) = some ⟨Config.default,
      { boot Config.default 0 [0x25] [] [] off with
        ir := 0x25#8, pc := 3#8, errors := [.errOpcode 0x25#8 0#8]
        events := [.error (.errOpcode 0x25#8 0#8), .step 3#8] }⟩ := by decide
/-- An instruction that straddles the top of memory. -/
theorem test_straddling_instruction :
    view (step ⟨Config.default, boot Config.default 0xFE [0x02, 0x01, 0x07] [] [] off⟩) (fun t => (reg 1 t, pc t)) =
      some (7, 1) := by decide

/-! ### ALU and codec (95_test_vectors.md 2.1) -/

theorem test_codec :
    intToBits (-3) 8 = some 0xFD#8 ∧ intToBits (-255) 8 = some 0x01#8 ∧ intToBits 256 8 = none ∧
    bitsToInt 0x80#8 = -128 ∧ bitsToInt 0x7F#8 = 127 := by decide
theorem test_alu_boundaries :
    neg 0x80#8 = 0x80#8 ∧ addW 0xFF#8 0x01#8 = (0#8, true) ∧ subW true 0x7F#8 0xFF#8 = (0x80#8, false) ∧
    mulW 0x80#8 0xFF#8 = (0x80#8, false, false) ∧ mulW 0x7F#8 0x7F#8 = (0x01#8, true, false) ∧
    mulW 0xFF#8 0x00#8 = (0#8, false, true) ∧ incW 1#1 = (0#1, true) := by decide
theorem test_raw_datapath :
    rawMultiply [true, true, false] [true, true, true] =
      [true, false, true, false, true, false] ∧
    lessThan (bitsOfNat 8 0x80) (bitsOfNat 8 0x01) = false ∧
    maskedAnd [true, true, false] [true, false, true] = some [true, false, false] := by decide

/-! ### Host commands (95_test_vectors.md 2.7) -/

/-- V-CFG-1, V-CFG-2. -/
theorem test_construct_refuses :
    construct 0 0 256 defaultOpcodeMap true .signedFlags = .error (.cfgWidth 0) ∧
    construct 8 0 256 defaultOpcodeMap true .signedFlags = .error (.cfgRegs 0) := by decide
/-- V-LD-1, V-LD-4. -/
theorem test_load_refuses :
    (CoreState.initial Config.default).loadProgram (List.replicate 20 true) [] =
      (CoreState.initial Config.default).raise (.hostLoadLength 20) ∧
    (CoreState.initial Config.default).loadProgram [] (List.replicate 9 false) =
      (CoreState.initial Config.default).raise (.hostAddrFormat (List.replicate 9 false)) := by decide
/-- V-LD-2: the address wraps. -/
theorem test_load_wraps :
    ((CoreState.initial Config.default).loadProgram (bitsOfNat 16 0x1122) (bitsOfNat 8 0xFF)).ram.map
      (fun e => (e.1, e.2.toNat)) = [(0, 0x22), (0xFF, 0x11)] := by decide
/-- V-LD-3: cells at M or above are reported and skipped. -/
theorem test_load_past_ram :
    (CoreState.initial (ramSize 128)).loadProgram (bitsOfNat 24 0xAABBCC) (bitsOfNat 8 0x7F) =
      ({ CoreState.initial (ramSize 128) with
        ram := [(0x7F, 0xAA#8)], errors := [.errAddr 0x80#8, .errAddr 0x81#8]
        events := [.error (.errAddr 0x80#8), .error (.errAddr 0x81#8)] } : CoreState (ramSize 128)) := by decide
/-- V-RST-2: `reset(false, true)` keeps registers and flags. -/
theorem test_reset_ram_only :
    (boot Config.default 0 [1] [(0, 8)] [] (true, false, true)).resetCommand false true =
      { boot Config.default 0 [] [(0, 8)] [] (true, false, true) with events := [.reset] } := by decide
/-- V-RUN-1 at a step limit of 1: one step, then ERR_LOOP. -/
theorem test_run_limit :
    next? (runWith 1 [] ⟨Config.default, boot Config.default 0 [0x15] [] [] off⟩) = some ⟨Config.default,
      { boot Config.default 0 [0x15] [] [] off with
        ir := 0x15#8, engine := .halted, steps := 1, errors := [.errLoop 0#8]
        events := [.run, .step 0#8, .error (.errLoop 0#8)] }⟩ := by decide

/-! ### Assembler (95_test_vectors.md 2.8) -/

theorem test_assemble_literals :
    assemble Config.default "MOV %0,#-128".toList = .ok [.movRI 0 0x80] ∧
    assemble Config.default "MOV %0,#$ff".toList = .ok [.movRI 0 0xFF] ∧
    assemble Config.default "MOV %0,#b101".toList = .ok [.movRI 0 5] ∧
    assemble Config.default "JMP !b1".toList = .ok [.jmpD 1] := by decide
theorem test_assemble_labels :
    assemble Config.default "start:\nJMP end\nNOP\nend:\nJMP start".toList = .ok [.jmpD 2, .nop, .jmpD 0xFE] ∧
    assemble Config.default "JMP !e\n; a comment\n e:".toList = .ok [.jmpD 1] ∧
    assemble Config.default "JZ !-1".toList = .ok [.jeqD 0xFF] := by decide
theorem test_assemble_errors :
    assemble Config.default "ADD %0".toList = .error (.unknownInstr 1 "ADD%".toList) ∧
    assemble Config.default "MOV 0,#1".toList = .error (.badSigil 1 "0".toList) ∧
    assemble Config.default "ADD %0,".toList = .error (.badSigil 1 []) ∧
    assemble Config.default "\nJMP !nowhere".toList = .error (.undefLabel 2 "nowhere".toList) ∧
    assemble Config.default "MOV %0,#256".toList = .error (.range 1 256) ∧
    assemble Config.default "MOV %0,#-129".toList = .error (.range 1 (-129)) ∧
    assemble Config.default "MOV %0,#12a".toList = .error (.badLiteral 1 "12a".toList) ∧
    assemble Config.default "add %0,%1".toList = .error (.unknownInstr 1 "add%%".toList) := by decide

/-- Load-from-text of P1's first line. -/
theorem test_loadText :
    (loadText "MOV %0,#5".toList [] (CoreState.initial Config.default)).toOption.map
      (fun s => s.ram.map (fun e => (e.1, e.2.toNat))) = some [(0, 2), (2, 5)] := by decide

/-! ### The memory of reset is canonical -/

theorem test_reset_memory_wf : State.reset.core.ram.wf = true ∧ State.reset.core.reg.wf = true := by decide

/-! ### Witnesses: for each statement with hypotheses, concrete values that meet all of them together, and each clause at
a boundary of its range -/

/-- An instance with full RAM, the registers 0 to 3 nonzero, and a HLT at 0. -/
abbrev full : CoreState Config.default := boot Config.default 0 [] [(0, 128), (3, 255)] [(255, 7)] (true, false, true)

/-- An instance with 128 RAM cells. -/
abbrev half : CoreState (ramSize 128) := boot (ramSize 128) 0 [] [(3, 255)] [(127, 7)] off

theorem witness_DecodeEncodeAgree :
    Instr.WellFormed Config.default (.movRI 0 255) ∧ Instr.WellFormed Config.default (.jzR 255) ∧
    Instr.WellFormed tiny .hlt ∧ Instr.WellFormed tiny (.movRR 1 1) := by decide

theorem witness_EncodeDecodeAgree :
    decode Config.default [2#8, 255#8, 0#8, 9#8] = .ok (⟨.movRI 255 0, 255#8, 0#8⟩, [9#8]) ∧
    decode Config.default [36#8, 1#8, 255#8] = .ok (⟨.nop, 1#8, 255#8⟩, []) := ⟨rfl, rfl⟩

theorem witness_DecodeRefusesExactlyUnassigned :
    (∀ v : Variant, Config.default.opcode v ≠ (37#8).toNat) ∧ Config.default.opcode .nop = (36#8).toNat :=
  ⟨fun v => by cases v <;> decide, by decide⟩

theorem witness_OnlyAliasPairsShareOpcodes :
    ("JEQ%", Variant.jeqR) ∈ keyTable ∧ ("JZ%", Variant.jeqR) ∈ keyTable ∧ ("JNZ!", Variant.jneD) ∈ keyTable ∧
    ("NOP", Variant.nop) ∈ keyTable := by decide

theorem witness_StreamWordDecodes :
    Instr.WellFormed Config.default (.movRI 0 255) ∧ Instr.WellFormed tiny (.movRR 1 1) := by decide

/-- The last three cells of RAM, and an instruction that straddles the top of memory. -/
theorem witness_StepRunsDecodedInstruction :
    (let s := boot (ramSize 128) 125 [2, 1, 7] [] [] off
     (∀ k, k ≤ 2 → (s.operandAddr k).toNat < 128) ∧
       decode (ramSize 128) [s.ram.read (s.operandAddr 0).toNat, s.ram.read (s.operandAddr 1).toNat,
         s.ram.read (s.operandAddr 2).toNat] = .ok (⟨.movRI 1 7, 1, 7⟩, [])) ∧
    (let s := boot Config.default 254 [2, 1, 7] [] [] off
     (∀ k, k ≤ 2 → (s.operandAddr k).toNat < 256) ∧
       decode Config.default [s.ram.read (s.operandAddr 0).toNat, s.ram.read (s.operandAddr 1).toNat,
         s.ram.read (s.operandAddr 2).toNat] = .ok (⟨.movRI 1 7, 1, 7⟩, [])) :=
  ⟨⟨fun k hk => by interval_cases k <;> decide, rfl⟩,
    ⟨fun _ _ => BitVec.isLt _, rfl⟩⟩

/-- The first unassigned opcode, fetched from the last cell of RAM. -/
theorem witness_UnknownOpcodeOnlyAdvances :
    let s := boot (ramSize 128) 127 [37] [] [] off
    ∀ v : Variant, (ramSize 128).opcode v ≠ (s.ramValue s.pc.toNat).toNat := fun v => by cases v <;> decide

theorem witness_FetchOutsideRamHalts :
    (ramSize 128).ramCells ≤ (boot (ramSize 128) 128 [] [] [] off).pc.toNat ∧ (ramSize 128).opcode .hlt = 0 := by decide

/-- Cell A is the last of RAM, cell B lies outside. -/
theorem witness_OperandFetchFollowsArity :
    let s := boot (ramSize 128) 126 [2, 1] [] [] off
    (ramSize 128).opcode .movRI = (s.ramValue s.pc.toNat).toNat ∧ (s.operandAddr 1).toNat = 127 ∧
      (s.operandAddr 2).toNat = 128 := by decide

theorem witness_StepEndsWithNotification :
    ∃ t, step ⟨ramSize 128, boot (ramSize 128) 0 [0x23, 0xF0] [] [] off⟩ = .next ⟨ramSize 128, t⟩ := ⟨_, rfl⟩

/-- Register destinations 3, the last, and 4, which does not exist; memory destinations 127, the last cell, and 128,
which does not exist; and an opcode that writes neither. -/
theorem witness_StepWritesAtMostOneCell :
    (∃ t, step ⟨ramSize 128, boot (ramSize 128) 0 [2, 3, 5] [] [] off⟩ = .next ⟨ramSize 128, t⟩ ∧ t.reg.read 3 = 5) ∧
    (∃ t, step ⟨ramSize 128, boot (ramSize 128) 0 [2, 4, 5] [] [] off⟩ = .next ⟨ramSize 128, t⟩ ∧ t.reg = []) ∧
    (∃ t, step ⟨ramSize 128, boot (ramSize 128) 0 [5, 127, 5] [] [] off⟩ = .next ⟨ramSize 128, t⟩ ∧ t.ram.read 127 = 5) ∧
    (∃ t, step ⟨ramSize 128, boot (ramSize 128) 0 [5, 128, 5] [] [] off⟩ = .next ⟨ramSize 128, t⟩ ∧ t.ram.length = 3) ∧
    (∃ t, step ⟨ramSize 128, boot (ramSize 128) 0 [37, 1, 5] [] [] off⟩ = .next ⟨ramSize 128, t⟩ ∧ t.reg = []) ∧
    (boot (ramSize 128) 0 [5, 128, 5] [] [] off).Inv :=
  ⟨⟨_, rfl, rfl⟩, ⟨_, rfl, rfl⟩, ⟨_, rfl, rfl⟩, ⟨_, rfl, rfl⟩, ⟨_, rfl, rfl⟩, ⟨rfl, rfl, rfl, rfl, rfl⟩⟩

/-- RAM exactly covers the address space; the log already holds an ERR_ADDR. -/
theorem witness_FullRamNeverReportsAddress :
    ∃ s t : CoreState Config.default, 2 ^ Config.default.width ≤ Config.default.ramCells ∧
      step ⟨Config.default, s⟩ = .next ⟨Config.default, t⟩ ∧ ErrorRecord.errAddr 0#8 ∈ t.errors :=
  ⟨(CoreState.initial Config.default).raise (.errAddr 0#8), _, by decide, rfl, .head _⟩

/-- The last register and the first that does not exist, as destination and as source. -/
theorem witness_MovToRegisterCompletes :
    full.reg.wf = true ∧ (3 : Operand) < 2 ^ Config.default.width ∧ (4 : Operand) < 2 ^ Config.default.width ∧
    half.reg.wf = true ∧ (127 : Operand) < 2 ^ (ramSize 128).width ∧ (128 : Operand) < 2 ^ (ramSize 128).width := by
  decide

/-- The last RAM cell and the first that does not exist. -/
theorem witness_MovToMemoryCompletes :
    full.ram.wf = true ∧ (255 : Operand) < 2 ^ Config.default.width ∧ (0 : Operand) < 2 ^ Config.default.width ∧
    half.ram.wf = true ∧ (127 : Operand) < 2 ^ (ramSize 128).width ∧ (128 : Operand) < 2 ^ (ramSize 128).width := by
  decide

theorem witness_AddCompletes :
    full.reg.wf = true ∧ (3 : Operand) < 2 ^ Config.default.width ∧ (255 : Operand) < 2 ^ Config.default.width ∧
    (full.regValue 3).toNat = 255 := by decide

/-- Subtrahends 0 and 255, minuends 0 and 255. -/
theorem witness_SubCompletes :
    full.reg.wf = true ∧ (3 : Operand) < 2 ^ Config.default.width ∧ (0 : Operand) < 2 ^ Config.default.width ∧
    (full.regValue 3).toNat = 255 ∧ (full.regValue 1).toNat = 0 := by decide

/-- The most negative value times −1. -/
theorem witness_MulCompletes :
    full.reg.wf = true ∧ (0 : Operand) < 2 ^ Config.default.width ∧ (255 : Operand) < 2 ^ Config.default.width ∧
    (full.regValue 0).toInt = -128 ∧ operandInt Config.default 255 = -1 := by decide

theorem witness_IncDecComplete :
    full.reg.wf = true ∧ (3 : Operand) < 2 ^ Config.default.width ∧ (1 : Operand) < 2 ^ Config.default.width ∧
    (full.regValue 3).toNat = 255 ∧ (full.regValue 1).toNat = 0 := by decide

theorem witness_CmpCompletes :
    (4 : Operand) < 2 ^ Config.default.width ∧ (0 : Operand) < 2 ^ Config.default.width ∧
    (255 : Operand) < 2 ^ Config.default.width := by decide

/-- A step of NOP. -/
theorem witness_OnlyArithmeticWritesFlags :
    ∃ t : CoreState Config.default,
      step ⟨Config.default, boot Config.default 0 [36] [] [] (true, true, true)⟩ = .next ⟨Config.default, t⟩ ∧
      ∀ v ∈ [Variant.addRR, .addRI, .addRM, .subRR, .subRI, .subRM, .mulRR, .mulRI, .mulRM, .incR, .decR,
        .cmpRR, .cmpRI, .cmpRM], Config.default.opcode v ≠ t.ir.toNat := ⟨_, rfl, by decide⟩

/-- The last register and the first that does not exist; C is set and Z is clear in `full`, so some jumps are taken and
some are not. -/
theorem witness_AbsoluteJumpsComplete :
    (3 : Operand) < 2 ^ Config.default.width ∧ (4 : Operand) < 2 ^ switched.width ∧ full.carry = true ∧
    full.zero = false := by decide

/-- The most positive and the most negative displacement. -/
theorem witness_RelativeJumpsComplete :
    (127 : Operand) < 2 ^ Config.default.width ∧ (128 : Operand) < 2 ^ Config.default.width ∧
    operandInt Config.default 127 = 127 ∧ operandInt Config.default 128 = -128 := by decide

theorem witness_LabelDisplacementLands :
    (boot Config.default 3 [] [] [] off).pc = bitsW Config.default.width ((0 : Nat) + 3 * (1 : Nat)) := by decide

/-- Each clause: a nonzero right operand; zero with the switch on; the two ends of the signed range. -/
theorem witness_CompareThenJumpOrders :
    (1 ≤ 8 ∧ (1#8 ≠ 0 ∨ false = true)) ∧ (0#8 ≠ 0 ∨ true = true) ∧
    (-(2 ^ (8 - 1) : Int) ≤ (128#8).toInt - (0#8).toInt ∧ (128#8).toInt - (0#8).toInt < 2 ^ (8 - 1)) ∧
    (-(2 ^ (8 - 1) : Int) ≤ (127#8).toInt - (0#8).toInt ∧ (127#8).toInt - (0#8).toInt < 2 ^ (8 - 1)) := by decide

theorem witness_OutCompletes : (4 : Operand) < 2 ^ Config.default.width ∧ (128 : Operand) < 2 ^ (ramSize 128).width := by
  decide

theorem witness_StepKeepsInv :
    ∃ t : CoreState (ramSize 128), (boot (ramSize 128) 0 [4, 127, 3] [(3, 1)] [] off).Inv ∧
      step ⟨ramSize 128, boot (ramSize 128) 0 [4, 127, 3] [(3, 1)] [] off⟩ = .next ⟨ramSize 128, t⟩ :=
  ⟨_, ⟨rfl, rfl, rfl, rfl, rfl⟩, rfl⟩

theorem witness_CommandKeepsInv : full.Inv := ⟨rfl, rfl, rfl, rfl, rfl⟩

/-- A fresh instance, and one a program was loaded into. -/
theorem witness_ReachableStatesSatisfyInv :
    Reachable tiny (CoreState.initial tiny) ∧
    ∃ t : CoreState tiny, Reachable tiny t ∧ t.ram.read 1 = 1#1 :=
  ⟨.construct, _, .command (.loadProgram [true] [true]) .construct rfl, rfl⟩

theorem witness_LogsOnlyGrow :
    ∃ t : CoreState Config.default,
      State.command (.reset true true) ⟨Config.default, full.raise (.errReg 9#8)⟩ = .next ⟨Config.default, t⟩ := ⟨_, rfl⟩

theorem witness_ConstructChecks :
    0 < 1 ∧ (1 ≤ 1 ∧ 0 < 1) ∧ (1 ≤ 1 ∧ 1 ≤ 1 ∧ defaultOpcodeMap.toList.Nodup) := by decide

theorem witness_SharedOpcodeMapRefused :
    1 ≤ 1 ∧ Variant.hlt ≠ Variant.nop ∧
    (Vector.replicate 37 0)[Variant.hlt.index] = (Vector.replicate 37 0)[Variant.nop.index] := by decide

/-- An address and a value of the full width; each one bit too long; one cell written before. -/
theorem witness_MemoryReadsWhatWasWritten :
    Memory.wf [(5, 1#8)] = true ∧ (List.replicate 8 true).length ≤ 8 ∧ 8 < (List.replicate 9 true).length := by decide

/-- Two Bytes at the top of the smallest address space, which they fill; no Byte at all; three Bytes over the end of
RAM, as in V-LD-3; and three Bytes in an address space of two, where the third overwrites the first. -/
theorem witness_LoadProgramStoresBytes :
    (CoreState.initial tiny).ram.wf = true ∧ [true].length ≤ tiny.width ∧ [true, false].length = 2 * tiny.width ∧
    ([] : Bits).length = 0 * tiny.width ∧
    (half.ram.wf = true ∧ (bitsOfNat 8 0x7F).length ≤ (ramSize 128).width ∧
      (bitsOfNat 24 0xAABBCC).length = 3 * (ramSize 128).width ∧
      (Bits.uint (bitsOfNat 8 0x7F) + 0) % 2 ^ (ramSize 128).width < (ramSize 128).ramCells ∧
      ¬ (Bits.uint (bitsOfNat 8 0x7F) + 1) % 2 ^ (ramSize 128).width < (ramSize 128).ramCells) ∧
    ((CoreState.initial tiny).loadProgram [true, true, false] []).ram.map (fun e => (e.1, e.2.toNat)) = [(1, 1)] := by
  decide

/-- One bit too many in the address; one bit too few in the program. -/
theorem witness_MalformedHostInputsOnlyReport :
    Config.default.width < (List.replicate 9 true).length ∧ (List.replicate 8 true).length ≤ Config.default.width ∧
    (List.replicate 7 true).length % Config.default.width ≠ 0 := by decide

/-- A start address of the full width, and the empty one; the smallest limit. -/
theorem witness_RunTerminatesHalted :
    (List.replicate 8 true).length ≤ Config.default.width ∧ ([] : Bits).length ≤ Config.default.width ∧
    (1 : StepLimit).val = 1 := by decide

/-- The run of NOP, HLT: the NOP leaves the engine running, the HLT halts it, and the limit of 2 is just enough. -/
def nopHlt : CoreState Config.default := boot Config.default 0 [36] [] [] off

/-- The states of that run. -/
def nopHltTrace : Nat → CoreState Config.default
  | 0 => nopHlt.beginRun 0#8
  | 1 => { nopHlt with ir := 36#8, pc := 3#8, engine := .running, events := [.run, .step 3#8] }
  | _ => { nopHlt with ir := 0#8, pc := 6#8, engine := .halted, events := [.run, .step 3#8, .step 6#8] }

theorem witness_RunIsCountedSteps :
    ([] : Bits).length ≤ Config.default.width ∧ 1 < (2 : StepLimit).val ∧ nopHltTrace 0 = nopHlt.beginRun (Bits.toByte 8 []) ∧
    (∀ k, k ≤ 1 → step ⟨Config.default, nopHltTrace k⟩ = .next ⟨Config.default, nopHltTrace (k + 1)⟩) ∧
    (∀ k, k ≤ 1 → (nopHltTrace k).engine = .running) ∧ (nopHltTrace (1 + 1)).engine = .halted :=
  ⟨by decide, by decide, rfl,
    fun k hk => match k, hk with
      | 0, _ => rfl
      | 1, _ => rfl,
    fun k hk => match k, hk with
      | 0, _ => rfl
      | 1, _ => rfl,
    rfl⟩

/-- A jump in the last cell of RAM, its operand cell at address 0; and one whose operand cell is the last of a RAM of
128 cells. -/
theorem witness_SelfJumpRunsIntoLimit :
    (let s := boot Config.default 255 [21, 0] [] [] off
     let start := List.replicate 8 true
     start.length ≤ Config.default.width ∧ Bits.uint start < Config.default.ramCells ∧
       (Bits.uint start + 1) % 2 ^ Config.default.width < Config.default.ramCells ∧
       (s.ram.read (Bits.uint start)).toNat = Config.default.opcode .jmpD ∧
       s.ram.read ((Bits.uint start + 1) % 2 ^ Config.default.width) = 0) ∧
    (let s := boot (ramSize 128) 126 [21, 0] [] [] off
     let start := bitsOfNat 8 126
     start.length ≤ (ramSize 128).width ∧ Bits.uint start < (ramSize 128).ramCells ∧
       (Bits.uint start + 1) % 2 ^ (ramSize 128).width < (ramSize 128).ramCells ∧
       (s.ram.read (Bits.uint start)).toNat = (ramSize 128).opcode .jmpD ∧
       s.ram.read ((Bits.uint start + 1) % 2 ^ (ramSize 128).width) = 0) := by decide

theorem witness_IntToBitsIsBitsW : (-255 : Int).natAbs < 2 ^ 8 ∧ ¬ (-256 : Int).natAbs < 2 ^ 8 := by decide

theorem witness_BitsToIntIsSint : 1 ≤ 1 ∧ (1#1).msb = true := by decide

theorem witness_SubWIsAddOfNeg : (255#8 : Byte 8) ≠ 0 ∧ (0#8 : Byte 8) = 0 := by decide

theorem witness_RawMultiplyIsExact :
    ([true, true, false] : Bits).length = ([true, true, true] : Bits).length ∧ ([] : Bits).length = ([] : Bits).length := by
  decide

theorem witness_DecWIgnoresSwitch : (1 : Nat) ≤ 1 := by decide

theorem witness_AssembledInstructionsWellFormed :
    ∃ is : List Instr, assemble Config.default "OUT @255\nNOP".toList = .ok is ∧ .outM 255 ∈ is := ⟨_, rfl, by decide⟩

/-- The first and the last instruction of a program. -/
theorem witness_CompiledProgramDecodes :
    ∃ is : List Instr, assemble Config.default "OUT @255\nNOP".toList = .ok is ∧ is[0]? = some (.outM 255) ∧
      is[1]? = some .nop := ⟨_, rfl, by decide, by decide⟩

theorem witness_LastLabelDeclarationWins :
    isIdent "loop".toList = true ∧ isIdent ['.'] = true ∧
    ∀ l ∈ ["NOP".toList, "next:".toList], labelOf (trim l) ≠ some "loop".toList := by decide

/-- The two ends of the literal range, and the values just outside. -/
theorem witness_LiteralRangeIsChecked :
    (-(2 ^ (Config.default.width - 1) : Int) ≤ -128 ∧ (255 : Int) ≤ 2 ^ Config.default.width - 1) ∧
    ¬ (-(2 ^ (Config.default.width - 1) : Int) ≤ -129) ∧ ¬ ((256 : Int) ≤ 2 ^ Config.default.width - 1) := by decide

end Sys2Proof.Tests
end

section
/-! PROOFS. The shapes of the instructions, said once for every proof about `exec`. -/

namespace Sys2Proof.Machine.CoreState

variable {cfg : Config}

/-- What an instruction can do to the mutable state: one of the instruction shapes of Machine/Operands.lean, a halt
(45_output_halt.md R333) or nothing but the pc advance (R334). -/
inductive ExecShape : (CoreState cfg → CoreState cfg) → Prop
  | move (d : DstMode) (m : SrcMode) (a b : Byte cfg.width) : ExecShape (move d m a b)
  | binary (m : SrcMode) (f : Byte cfg.width → Byte cfg.width → AluResult cfg.width) (a b : Byte cfg.width) :
      ExecShape (binary m f a b)
  | unary (f : Byte cfg.width → AluResult cfg.width) (a : Byte cfg.width) : ExecShape (unary f a)
  | compare (m : SrcMode) (a b : Byte cfg.width) : ExecShape (compare m a b)
  | jumpAbs (c : Cond) (a : Byte cfg.width) : ExecShape (jumpAbs c a)
  | jumpRel (c : Cond) (a : Byte cfg.width) : ExecShape (jumpRel c a)
  | output (m : SrcMode) (a : Byte cfg.width) : ExecShape (output m a)
  | halt : ExecShape (fun s => (s.setEngine .halted).advance)
  | nop : ExecShape advance

/-- Every instruction completes, and what it does has one of the shapes. -/
theorem exec_shape (i : Instr) (s : CoreState cfg) :
    ∃ f : CoreState cfg → CoreState cfg, ExecShape f ∧ exec i ⟨cfg, s⟩ = .next ⟨cfg, f s⟩ := by
  cases i with
  | movRR | movRI | movRM | movMR | movMI => exact ⟨_, .move _ _ _ _, rfl⟩
  | addRR | addRI | addRM | subRR | subRI | subRM | mulRR | mulRI | mulRM => exact ⟨_, .binary _ _ _ _, rfl⟩
  | incR | decR => exact ⟨_, .unary _ _, rfl⟩
  | cmpRR | cmpRI | cmpRM => exact ⟨_, .compare _ _ _, rfl⟩
  | jmpR | jcR | jncR | jeqR | jzR | jneR | jnzR | jgtrR | jlssR => exact ⟨_, .jumpAbs _ _, rfl⟩
  | jmpD | jcD | jncD | jeqD | jzD | jneD | jnzD | jgtrD | jlssD => exact ⟨_, .jumpRel _ _, rfl⟩
  | outR | outM => exact ⟨_, .output _ _, rfl⟩
  | hlt => exact ⟨_, .halt, rfl⟩
  | nop => exact ⟨_, .nop, rfl⟩

end Sys2Proof.Machine.CoreState
end

section
/-! PROOFS. The two logs only grow (10_state.md R44, R45): the relation between the state before and the state after,
kept by every operation, every step, the run loop and every host command. -/

namespace Sys2Proof.Machine.CoreState

variable {cfg : Config} {s t u : CoreState cfg}

/-- From `s` to `t` the event log gained events, the error log exactly the errors among them, and neither lost an entry. -/
def LogsGrow (s t : CoreState cfg) : Prop :=
  ∃ newEvs : List (Event cfg.width),
    t.events = s.events ++ newEvs ∧ t.errors = s.errors ++ newEvs.filterMap reportedError

theorem LogsGrow.trans (hst : LogsGrow s t) (htu : LogsGrow t u) : LogsGrow s u := by
  obtain ⟨evs, hev, herr⟩ := hst
  obtain ⟨evs', hev', herr'⟩ := htu
  exact ⟨evs ++ evs', by rw [hev', hev, List.append_assoc],
    by rw [herr', herr, List.filterMap_append, List.append_assoc]⟩

theorem LogsGrow.of_logs_eq (hev : t.events = s.events) (herr : t.errors = s.errors) : LogsGrow s t :=
  ⟨[], by simp [hev], by simp [herr]⟩

/-- Reporting errors grows the logs, whatever happens to the other fields. -/
theorem LogsGrow.of_report (es : List (ErrorRecord cfg.width)) (hev : t.events = s.events ++ es.map .error)
    (herr : t.errors = s.errors ++ es) : LogsGrow s t := by
  have hes : (es.map Event.error).filterMap reportedError = es := by
    simp [List.filterMap_map, Function.comp_def, reportedError]
  exact ⟨es.map .error, hev, by rw [hes, herr]⟩

/-- Emitting an event that reports no error grows the logs, whatever happens to the other fields. -/
theorem LogsGrow.of_emit {e : Event cfg.width} (he : reportedError e = none) (hev : t.events = s.events ++ [e])
    (herr : t.errors = s.errors) : LogsGrow s t :=
  ⟨[e], hev, by simp [he, herr]⟩

theorem logsGrow_raise (e : ErrorRecord cfg.width) (s : CoreState cfg) : LogsGrow s (s.raise e) :=
  .of_report [e] rfl rfl

theorem logsGrow_notifyStep (s : CoreState cfg) : LogsGrow s s.notifyStep := .of_emit rfl rfl rfl

/-! ### One step -/

theorem ExecShape.logsGrow {f : CoreState cfg → CoreState cfg} (hf : ExecShape f) (s : CoreState cfg) :
    LogsGrow s (f s) := by
  cases hf with
  | move d m a b =>
    cases d with
    | reg => rw [move_reg_eq]; exact .of_report _ rfl rfl
    | mem => rw [move_mem_eq]; exact .of_report _ rfl rfl
  | binary m f a b => rw [binary_eq]; exact .of_report _ rfl rfl
  | unary f a => rw [unary_eq]; exact .of_report _ rfl rfl
  | compare m a b => rw [compare_eq]; exact .of_report _ rfl rfl
  | jumpAbs c a =>
    rw [jumpAbs_eq]
    split
    · exact .of_report _ rfl rfl
    · exact .of_logs_eq rfl rfl
  | jumpRel c a => rw [jumpRel_eq]; exact .of_logs_eq rfl rfl
  | output m a =>
    rw [output_eq]
    have hsrc : LogsGrow s (s.report (srcFault m a)) := .of_report _ rfl rfl
    exact hsrc.trans (.of_emit rfl rfl rfl)
  | halt => exact .of_logs_eq rfl rfl
  | nop => exact .of_logs_eq rfl rfl

/-- Every step completes and grows the logs. -/
theorem step_logsGrow (s : CoreState cfg) :
    ∃ t : CoreState cfg, step ⟨cfg, s⟩ = .next ⟨cfg, t⟩ ∧ LogsGrow s t := by
  by_cases hop : ∃ v : Variant, cfg.opcode v = (s.ramValue s.pc.toNat).toNat
  · obtain ⟨v, hv⟩ := hop
    obtain ⟨f, hf, hexec⟩ := exec_shape
      (v.instr (s.ramValue (s.operandAddr 1).toNat).toNat (s.ramValue (s.operandAddr 2).toNat).toNat) (s.fetched v)
    have hfetch : LogsGrow s (s.fetched v) := .of_report _ rfl rfl
    exact ⟨(f (s.fetched v)).notifyStep, by rw [step_of_opcode s v hv, hexec]; rfl,
      (hfetch.trans (hf.logsGrow _)).trans (logsGrow_notifyStep _)⟩
  · refine ⟨_, step_of_unassigned s (not_exists.1 hop), .trans ?_ (logsGrow_notifyStep _)⟩
    exact .of_report (ramFault cfg s.pc.toNat ++ [.errOpcode (s.ramValue s.pc.toNat) s.pc]) (by simp) (by simp)

/-! ### Host commands -/

theorem logsGrow_resetCommand (clearRegs clearRam : Bool) (s : CoreState cfg) :
    LogsGrow s (s.resetCommand clearRegs clearRam) := by
  cases clearRegs <;> cases clearRam <;> exact .of_emit (e := .reset) rfl rfl rfl

theorem logsGrow_memWriteBits (c : Byte cfg.width) (value : Bits) (s : CoreState cfg) :
    LogsGrow s (s.memWriteBits c value) := by
  unfold memWriteBits
  split
  · exact logsGrow_raise _ s
  · rw [memWrite_eq]; exact .of_report _ rfl rfl

theorem logsGrow_loadBytes (bytes : List Bits) (a : Byte cfg.width) (s : CoreState cfg) :
    LogsGrow s (s.loadBytes bytes a) := by
  induction bytes generalizing a s with
  | nil => exact .of_logs_eq rfl rfl
  | cons v rest ih => exact (logsGrow_memWriteBits a v s).trans (ih _ _)

theorem logsGrow_loadProgram (bits address : Bits) (s : CoreState cfg) :
    LogsGrow s (s.loadProgram bits address) := by
  unfold loadProgram
  split
  · exact logsGrow_raise _ s
  · split
    · exact logsGrow_raise _ s
    · exact logsGrow_loadBytes _ _ s

/-- The run loop answers a next state and grows the logs, under every limit and fuel. -/
theorem runLoop_logsGrow (limit fuel : Nat) (s : CoreState cfg) :
    ∃ t : CoreState cfg, runLoop limit fuel ⟨cfg, s⟩ = .next ⟨cfg, t⟩ ∧ LogsGrow s t := by
  induction fuel generalizing s with
  | zero => exact ⟨s, rfl, .of_logs_eq rfl rfl⟩
  | succ fuel ih =>
    unfold runLoop
    split
    · split
      · exact ⟨s.stopAtLimit, rfl, .of_report [.errLoop s.pc] rfl rfl⟩
      · obtain ⟨t, hstep, hst⟩ := step_logsGrow s
        obtain ⟨u, hloop, htu⟩ := ih t.countStep
        have hcount : LogsGrow t t.countStep := .of_logs_eq rfl rfl
        exact ⟨u, by rw [hstep]; exact hloop, (hst.trans hcount).trans htu⟩
    · exact ⟨s, rfl, .of_logs_eq rfl rfl⟩

theorem runWith_logsGrow (limit : StepLimit) (start : Bits) (s : CoreState cfg) :
    ∃ t : CoreState cfg, runWith limit start ⟨cfg, s⟩ = .next ⟨cfg, t⟩ ∧ LogsGrow s t := by
  unfold runWith
  split
  · exact ⟨_, rfl, logsGrow_raise _ s⟩
  · obtain ⟨t, hloop, ht⟩ := runLoop_logsGrow limit.val (limit.val + 1) (s.beginRun (start.toByte cfg.width))
    have hbegin : LogsGrow s (s.beginRun (start.toByte cfg.width)) := .of_emit rfl (beginRun_events s _) rfl
    exact ⟨t, hloop, hbegin.trans ht⟩

/-- Every host command completes and grows the logs. -/
theorem command_logsGrow (c : Command) (s : CoreState cfg) :
    ∃ t : CoreState cfg, State.command c ⟨cfg, s⟩ = .next ⟨cfg, t⟩ ∧ LogsGrow s t := by
  cases c with
  | reset clearRegs clearRam => exact ⟨_, rfl, logsGrow_resetCommand clearRegs clearRam s⟩
  | loadProgram bits address => exact ⟨_, rfl, logsGrow_loadProgram bits address s⟩
  | run start => exact runWith_logsGrow Config.stepLimit start s
  | step => exact step_logsGrow s

/-- Settles O35: every host command answers some next state with grown logs, and `t` is that state. -/
theorem logsOnlyGrow : Obligations.LogsOnlyGrow := by
  intro cfg s t c h
  obtain ⟨u, hu, hgrow⟩ := command_logsGrow c s
  obtain rfl : u = t := by
    simpa only [Host.Outcome.next.injEq, State.mk.injEq, heq_eq_eq, true_and] using hu.symm.trans h
  exact hgrow

end Sys2Proof.Machine.CoreState
end

section
/-! PROOFS. The Memory component at the host interface (20_memory.md R72 to R74): what `readBits` and `writeBits` answer
for an address and a value of any length. -/

namespace Sys2Proof.Machine.Memory

variable {w : Nat} {m : Memory w} {a v : Bits}

/-! ### The two length checks -/

theorem readBits_of_address_too_long (ha : w < a.length) : m.readBits a = .error (.hostAddrFormat a) := if_pos ha

theorem readBits_of_address_fits (ha : a.length ≤ w) : m.readBits a = .ok (m.read a.uint) := if_neg (Nat.not_lt.2 ha)

theorem writeBits_of_address_too_long (ha : w < a.length) : m.writeBits a v = .error (.hostAddrFormat a) := if_pos ha

theorem writeBits_of_value_too_long (ha : a.length ≤ w) (hv : w < v.length) :
    m.writeBits a v = .error (.hostCapacity v) := by
  rw [writeBits, if_neg (Nat.not_lt.2 ha), if_pos hv]

theorem writeBits_of_fits (ha : a.length ≤ w) (hv : v.length ≤ w) :
    m.writeBits a v = .ok (m.write a.uint (v.toByte w)) := by
  rw [writeBits, if_neg (Nat.not_lt.2 ha), if_neg (Nat.not_lt.2 hv)]

/-! ### Read after write -/

/-- Padding on the left keeps the value, so the written cell reads the value's own `uint`. -/
theorem read_write_toByte_toNat (hm : m.wf = true) (hv : v.length ≤ w) (c k : Nat) :
    ((m.write c (v.toByte w)).read k).toNat = if k = c then v.uint else (m.read k).toNat := by
  rw [read_write m c (v.toByte w) k hm, apply_ite BitVec.toNat, Bits.toByte_toNat w v hv]

/-- Settles O16: the two refusals are the length checks; an accepted write is `write` of the padded value, and
read after write gives what every cell then reads. -/
theorem memoryReadsWhatWasWritten : Obligations.MemoryReadsWhatWasWritten := by
  intro w m a v hm
  refine ⟨fun ha => ?_, fun ha hv => ?_, fun ha hv => ?_, fun ha => ?_⟩
  · exact ⟨readBits_of_address_too_long ha, writeBits_of_address_too_long ha⟩
  · exact writeBits_of_value_too_long ha hv
  · refine ⟨m.write a.uint (v.toByte w), writeBits_of_fits ha hv, wf_write m _ _ hm, fun b hb => ?_⟩
    exact ⟨_, _, readBits_of_address_fits hb, readBits_of_address_fits hb,
      read_write_toByte_toNat hm hv a.uint b.uint⟩
  · rw [readBits_of_address_fits ha, clear_eq, read_nil]

end Sys2Proof.Machine.Memory
end

section
/-! PROOFS. Opcode lookup and the key table (30_encoding.md R101, R111, R114). -/

namespace Sys2Proof

/-! ### Decoding three cells -/

theorem decode_of_opcode {cfg : Config} {v : Variant} {opc : Byte cfg.width} (h : cfg.opcode v = opc.toNat)
    (a b : Byte cfg.width) (rest : List (Byte cfg.width)) :
    decode cfg (opc :: a :: b :: rest) = .ok (⟨v.instr a.toNat b.toNat, a, b⟩, rest) := by
  have hv : decodeOpcode cfg opc.toNat = some v := h ▸ decodeOpcode_opcode cfg v
  simp only [decode, hv]

theorem decode_of_unassigned {cfg : Config} {opc : Byte cfg.width} (h : ∀ v : Variant, cfg.opcode v ≠ opc.toNat)
    (a b : Byte cfg.width) (rest : List (Byte cfg.width)) :
    decode cfg (opc :: a :: b :: rest) = .error (.unknownOpcode opc.toNat) := by
  have hnone : decodeOpcode cfg opc.toNat = none := (decodeOpcode_eq_none cfg opc.toNat).2 h
  simp only [decode, hnone]

/-- Settles O4: either some variant has the opcode cell's value, and then only that one because every OPCODE_MAP is
injective on variants, or none has it. -/
theorem decodeRefusesExactlyUnassigned : Obligations.DecodeRefusesExactlyUnassigned := by
  intro cfg opc a b rest
  by_cases hop : ∃ v : Variant, cfg.opcode v = opc.toNat
  · obtain ⟨v, hv⟩ := hop
    exact .inr ⟨v, hv, fun u hu => cfg.opcode_injective (hu.trans hv.symm), decode_of_opcode hv a b rest⟩
  · have hunassigned := not_exists.1 hop
    exact .inl ⟨hunassigned, decode_of_unassigned hunassigned a b rest⟩

/-! ### The key table -/

/-- The four pairs of aliased keys of R111, the canonical key (R134) first. -/
def aliasPairs : List (String × String) :=
  [("JEQ%", "JZ%"), ("JEQ!", "JZ!"), ("JNE%", "JNZ%"), ("JNE!", "JNZ!")]

theorem keyTable_keys_nodup : (keyTable.map (·.1)).Nodup := by decide

/-- A key has one entry in the table. -/
theorem eq_of_mem_keyTable_of_key_eq {e f : String × Variant} (he : e ∈ keyTable) (hf : f ∈ keyTable)
    (h : e.1 = f.1) : e = f :=
  List.inj_on_of_nodup_map keyTable_keys_nodup he hf h

/-- The two keys of an aliased pair stand in the table with one variant. -/
theorem exists_variant_of_mem_aliasPairs :
    ∀ p ∈ aliasPairs, ∃ v : Variant, (p.1, v) ∈ keyTable ∧ (p.2, v) ∈ keyTable := by
  simp only [aliasPairs, List.forall_mem_cons]
  exact ⟨⟨.jeqR, by decide⟩, ⟨.jeqD, by decide⟩, ⟨.jneR, by decide⟩, ⟨.jneD, by decide⟩, by simp⟩

theorem variant_eq_of_mem_aliasPairs {e f : String × Variant} (he : e ∈ keyTable) (hf : f ∈ keyTable)
    (h : (e.1, f.1) ∈ aliasPairs) : e.2 = f.2 := by
  obtain ⟨v, hv₁, hv₂⟩ := exists_variant_of_mem_aliasPairs _ h
  rw [eq_of_mem_keyTable_of_key_eq he hv₁ rfl, eq_of_mem_keyTable_of_key_eq hf hv₂ rfl]

/-- Each key of the table is its variant's canonical key or is aliased with it. -/
theorem key_eq_canonical_or_alias :
    ∀ e ∈ keyTable, e.1 = (e.2.instr 0 0).key ∨ ((e.2.instr 0 0).key, e.1) ∈ aliasPairs := by decide

/-- A canonical key is aliased with at most one other key. -/
theorem aliasPairs_right_unique :
    ∀ p ∈ aliasPairs, ∀ q ∈ aliasPairs, p.1 = q.1 → p.2 = q.2 := by decide

/-- Two keys of one variant are one key or an aliased pair. -/
theorem key_eq_or_alias_of_variant_eq {e f : String × Variant} (he : e ∈ keyTable) (hf : f ∈ keyTable)
    (h : e.2 = f.2) : e.1 = f.1 ∨ (e.1, f.1) ∈ aliasPairs ∨ (f.1, e.1) ∈ aliasPairs := by
  have hkeyE := key_eq_canonical_or_alias e he
  have hkeyF := key_eq_canonical_or_alias f hf
  rw [← h] at hkeyF
  rcases hkeyE with hce | hae <;> rcases hkeyF with hcf | haf
  · exact .inl (hce.trans hcf.symm)
  · exact .inr (.inl (hce ▸ haf))
  · exact .inr (.inr (hcf ▸ hae))
  · exact .inl (aliasPairs_right_unique _ hae _ haf rfl)

/-- Settles O5: OPCODE_MAP is injective on variants, so two keys share an opcode exactly when the table gives them one
variant. -/
theorem onlyAliasPairsShareOpcodes : Obligations.OnlyAliasPairsShareOpcodes := by
  refine ⟨fun cfg e f he hf => ⟨fun h => ?_, ?_⟩, keyTable_keys_nodup, rfl, by decide, by decide, by decide⟩
  · exact key_eq_or_alias_of_variant_eq he hf (cfg.opcode_injective h)
  · rintro (hkey | hef | hfe)
    · rw [eq_of_mem_keyTable_of_key_eq he hf hkey]
    · rw [variant_eq_of_mem_aliasPairs he hf hef]
    · rw [variant_eq_of_mem_aliasPairs hf he hfe]

end Sys2Proof
end

section
/-! PROOFS. Pass 1 of the assembler (30_encoding.md R120 to R124): which line declares a label, what each kind of line
adds to the queue, and how the labels of a source text are looked up. -/

namespace Sys2Proof.Machine

/-! ### The line that declares a label -/

/-- The first character of an identifier: no blank, and no comment mark (R122). -/
theorem head_of_isIdent {c : Char} {cs : Text} (h : isIdent (c :: cs) = true) : isBlank c = false ∧ c ≠ ';' := by
  have hc : (isLetter c || c == '.') = true := (Bool.and_eq_true_iff.1 h).1
  constructor
  · simp only [isBlank, Bool.or_eq_false_iff, beq_eq_false_iff_ne]
    constructor <;> rintro rfl <;> revert hc <;> decide
  · rintro rfl
    revert hc
    decide

/-- A text whose first and last characters are not blank is trimmed already (R120). -/
theorem trim_of_ends {c d : Char} (mid : Text) (hc : isBlank c = false) (hd : isBlank d = false) :
    trim (c :: mid ++ [d]) = c :: mid ++ [d] := by
  simp [trim, hc, hd]

/-- The line of a label is the identifier with its colon, which trimming keeps (R122). -/
theorem trim_ident_colon {name : Text} (h : isIdent name = true) : trim (name ++ [':']) = name ++ [':'] := by
  cases name with
  | nil => exact absurd h (by decide)
  | cons c cs => exact trim_of_ends cs (head_of_isIdent h).1 (by decide)

theorem labelOf_ident_colon {name : Text} (h : isIdent name = true) : labelOf (name ++ [':']) = some name := by
  simp [labelOf, h]

/-! ### What pass 1 makes of a line -/

/-- A trimmed line that pass 1 discards: a blank line or a comment (R122). -/
def isDiscarded (t : Text) : Bool := t.isEmpty || t.head? == some ';'

theorem isDiscarded_ident_colon {name : Text} (h : isIdent name = true) : isDiscarded (name ++ [':']) = false := by
  cases name with
  | nil => exact absurd h (by decide)
  | cons c cs => simp [isDiscarded, (head_of_isIdent h).2]

section Line

variable {raw : Text} (rest : List Text) (line count : Nat)

theorem pass1_discarded (h : isDiscarded (trim raw) = true) :
    pass1 (raw :: rest) line count = pass1 rest (line + 1) count := if_pos h

theorem pass1_label {name : Text} (h : isDiscarded (trim raw) = false) (hl : labelOf (trim raw) = some name) :
    pass1 (raw :: rest) line count =
      ⟨(name, count) :: (pass1 rest (line + 1) count).labels, (pass1 rest (line + 1) count).instrs⟩ := by
  refine (if_neg (Bool.eq_false_iff.1 h)).trans ?_
  rw [hl]

theorem pass1_instr (h : isDiscarded (trim raw) = false) (hl : labelOf (trim raw) = none) :
    pass1 (raw :: rest) line count =
      ⟨(pass1 rest (line + 1) (count + 1)).labels,
        (line, trim raw) :: (pass1 rest (line + 1) (count + 1)).instrs⟩ := by
  refine (if_neg (Bool.eq_false_iff.1 h)).trans ?_
  rw [hl]

/-- The line of a label declares it with the number of instructions queued before it (R123). -/
theorem pass1_ident_colon {name : Text} (h : isIdent name = true) :
    (pass1 ((name ++ [':']) :: rest) line count).labels =
      (name, count) :: (pass1 rest (line + 1) count).labels := by
  rw [pass1_label (name := name)]
  · rw [trim_ident_colon h, isDiscarded_ident_colon h]
  · rw [trim_ident_colon h, labelOf_ident_colon h]

end Line

/-! ### What pass 1 makes of a text -/

/-- The labels of two pieces of a source text, one after the other: the second piece counts on from the first. -/
theorem pass1_append_labels (before after : List Text) (line count : Nat) :
    (pass1 (before ++ after) line count).labels =
      (pass1 before line count).labels ++
        (pass1 after (line + before.length) (count + (pass1 before line count).instrs.length)).labels := by
  induction before generalizing line count with
  | nil => rfl
  | cons raw rest ih =>
    cases hd : isDiscarded (trim raw) with
    | true =>
      simp only [List.cons_append, pass1_discarded _ _ _ hd, ih, List.length_cons, Nat.add_assoc, Nat.add_comm 1]
    | false =>
      cases hl : labelOf (trim raw) with
      | some name =>
        simp only [List.cons_append, pass1_label _ _ _ hd hl, ih, List.length_cons, Nat.add_assoc, Nat.add_comm 1]
      | none =>
        simp only [List.cons_append, pass1_instr _ _ _ hd hl, ih, List.length_cons, Nat.add_assoc, Nat.add_comm 1]

/-- Every label in the table is declared by a line of the text (R122). -/
theorem exists_line_of_mem_labels {lines : List Text} {line count : Nat} {e : Text × Nat}
    (h : e ∈ (pass1 lines line count).labels) : ∃ l ∈ lines, labelOf (trim l) = some e.1 := by
  induction lines generalizing line count with
  | nil => exact absurd h List.not_mem_nil
  | cons raw rest ih =>
    have inRest {line count : Nat} (hr : e ∈ (pass1 rest line count).labels) :
        ∃ l ∈ raw :: rest, labelOf (trim l) = some e.1 :=
      (ih hr).imp fun l hl => ⟨List.mem_cons_of_mem raw hl.1, hl.2⟩
    cases hd : isDiscarded (trim raw) with
    | true => exact inRest (pass1_discarded rest line count hd ▸ h)
    | false =>
      cases hl : labelOf (trim raw) with
      | none => rw [pass1_instr rest line count hd hl] at h; exact inRest h
      | some name =>
        rw [pass1_label rest line count hd hl] at h
        obtain rfl | hr := List.mem_cons.1 h
        · exact ⟨raw, List.mem_cons_self, hl⟩
        · exact inRest hr

/-! ### Looking a label up -/

/-- The last entry of a name is its value (R124). -/
theorem lookupLabel_append_cons (before after : List (Text × Nat)) (name : Text) (value : Nat)
    (h : ∀ e ∈ after, e.1 ≠ name) : lookupLabel (before ++ (name, value) :: after) name = some value := by
  have hafter : after.reverse.find? (fun e => e.1 == name) = none := by
    simpa [List.find?_eq_none] using h
  simp [lookupLabel, List.find?_append, hafter]

/-- Settles O58: the declaration's entry carries the count of the instructions before it, and the entries after it come
from lines that do not declare the name. -/
theorem lastLabelDeclarationWins : Obligations.LastLabelDeclarationWins := by
  intro before after name line hname hafter
  rw [pass1_append_labels, pass1_ident_colon _ _ _ hname, Nat.zero_add]
  refine lookupLabel_append_cons _ _ name _ fun e he hkey => ?_
  obtain ⟨l, hmem, hl⟩ := exists_line_of_mem_labels he
  exact hafter l hmem (hkey ▸ hl)

end Sys2Proof.Machine
end

section
/-! PROOFS. The execution cycle (40_execution_cycle.md R160 to R162, R169): what a step fetches, and what it adds to the
logs before its notification. -/

namespace Sys2Proof.Machine.CoreState

variable {cfg : Config} {s t : CoreState cfg}

/-! ### Operand fetch -/

/-- The arity table of R162. -/
theorem arity_eq (v : Variant) : v.arity =
    if v ∈ [Variant.hlt, .nop] then 0
    else if v ∈ [Variant.movRR, .movRI, .movRM, .movMR, .movMI, .addRR, .addRI, .addRM, .subRR, .subRI, .subRM, .mulRR,
      .mulRI, .mulRM, .cmpRR, .cmpRI, .cmpRM] then 2
    else 1 := by
  cases v <;> rfl

/-- A step with an assigned opcode: some instruction shape is applied to the state the fetches leave, then the step is
notified. -/
theorem step_shape_of_opcode (s : CoreState cfg) (v : Variant) (hv : cfg.opcode v = (s.ramValue s.pc.toNat).toNat) :
    ∃ f : CoreState cfg → CoreState cfg, ExecShape f ∧
      exec (v.instr (s.ramValue (s.operandAddr 1).toNat).toNat (s.ramValue (s.operandAddr 2).toNat).toNat)
        ⟨cfg, s.fetched v⟩ = .next ⟨cfg, f (s.fetched v)⟩ ∧
      step ⟨cfg, s⟩ = .next ⟨cfg, (f (s.fetched v)).notifyStep⟩ := by
  obtain ⟨f, hf, hexec⟩ := exec_shape
    (v.instr (s.ramValue (s.operandAddr 1).toNat).toNat (s.ramValue (s.operandAddr 2).toNat).toNat) (s.fetched v)
  exact ⟨f, hf, hexec, by rw [step_of_opcode s v hv, hexec]; rfl⟩

/-- Settles O10: the obligation's state before `exec` is `fetched`, its errors in the order opcode, A, B. -/
theorem operandFetchFollowsArity : Obligations.OperandFetchFollowsArity := by
  refine ⟨arity_eq, fun cfg s v hv => ?_⟩
  obtain ⟨f, -, hexec, hstep⟩ := step_shape_of_opcode s v hv
  refine ⟨f (s.fetched v), ?_, hstep⟩
  rw [List.append_assoc]
  exact hexec

/-! ### The events before the notification -/

/-- From `s` to `t` errors were reported, each in both logs, and after them bytes were output. -/
def ReportsThenOutputs (s t : CoreState cfg) : Prop :=
  ∃ (es : List (ErrorRecord cfg.width)) (vs : List (Byte cfg.width)),
    t.events = s.events ++ (es.map .error ++ vs.map .out) ∧ t.errors = s.errors ++ es

theorem ReportsThenOutputs.of_report (es : List (ErrorRecord cfg.width)) (hev : t.events = s.events ++ es.map .error)
    (herr : t.errors = s.errors ++ es) : ReportsThenOutputs s t :=
  ⟨es, [], by simpa using hev, herr⟩

theorem ReportsThenOutputs.of_logs_eq (hev : t.events = s.events) (herr : t.errors = s.errors) :
    ReportsThenOutputs s t :=
  .of_report [] (by simpa using hev) (by simpa using herr)

/-- Reports made before, as by the fetches of a step, come first. -/
theorem ReportsThenOutputs.report_trans {u : CoreState cfg} (es : List (ErrorRecord cfg.width))
    (hev : t.events = s.events ++ es.map .error) (herr : t.errors = s.errors ++ es) (h : ReportsThenOutputs t u) :
    ReportsThenOutputs s u := by
  obtain ⟨es', vs, hev', herr'⟩ := h
  exact ⟨es ++ es', vs, by simp [hev', hev], by simp [herr', herr]⟩

/-- Every instruction reports its errors first; only OUT then outputs, one byte. -/
theorem ExecShape.reportsThenOutputs {f : CoreState cfg → CoreState cfg} (hf : ExecShape f) (s : CoreState cfg) :
    ReportsThenOutputs s (f s) := by
  cases hf with
  | move d m a b =>
    cases d with
    | reg => rw [move_reg_eq]; exact .of_report _ rfl rfl
    | mem => rw [move_mem_eq]; exact .of_report _ rfl rfl
  | binary m f a b => rw [binary_eq]; exact .of_report _ rfl rfl
  | unary f a => rw [unary_eq]; exact .of_report _ rfl rfl
  | compare m a b => rw [compare_eq]; exact .of_report _ rfl rfl
  | jumpAbs c a =>
    rw [jumpAbs_eq]
    split
    · exact .of_report _ rfl rfl
    · exact .of_logs_eq rfl rfl
  | jumpRel c a => rw [jumpRel_eq]; exact .of_logs_eq rfl rfl
  | output m a => rw [output_eq]; exact ⟨srcFault m a, [s.srcValue m a], by simp, by simp⟩
  | halt => exact .of_logs_eq rfl rfl
  | nop => exact .of_logs_eq rfl rfl

/-- Every step notifies a state to which it came by reports and then outputs. -/
theorem step_eq_notifyStep (s : CoreState cfg) :
    ∃ u : CoreState cfg, step ⟨cfg, s⟩ = .next ⟨cfg, u.notifyStep⟩ ∧ ReportsThenOutputs s u := by
  by_cases hop : ∃ v : Variant, cfg.opcode v = (s.ramValue s.pc.toNat).toNat
  · obtain ⟨v, hv⟩ := hop
    obtain ⟨f, hf, -, hstep⟩ := step_shape_of_opcode s v hv
    exact ⟨f (s.fetched v), hstep, .report_trans _ rfl rfl (hf.reportsThenOutputs _)⟩
  · refine ⟨_, step_of_unassigned s (not_exists.1 hop), ?_⟩
    exact .of_report (ramFault cfg s.pc.toNat ++ [.errOpcode (s.ramValue s.pc.toNat) s.pc]) (by simp) (by simp)

/-- The errors among reports followed by outputs are the reports. -/
theorem filterMap_reportedError_error_out {w : Nat} (es : List (ErrorRecord w)) (vs : List (Byte w)) :
    (es.map Event.error ++ vs.map Event.out).filterMap reportedError = es := by
  simp [List.filterMap_append, List.filterMap_map, Function.comp_def, reportedError]

/-- Settles O12: the events before the notification are the step's reports, then its outputs. -/
theorem stepEndsWithNotification : Obligations.StepEndsWithNotification := by
  intro cfg s t h
  obtain ⟨u, hu, es, vs, hev, herr⟩ := step_eq_notifyStep s
  obtain rfl : u.notifyStep = t := by
    simpa only [Host.Outcome.next.injEq, State.mk.injEq, heq_eq_eq, true_and] using hu.symm.trans h
  refine ⟨es.map .error ++ vs.map .out, ?_, fun e he => ?_, ?_⟩
  · rw [notifyStep_events, notifyStep_pc, hev]
  · rcases List.mem_append.1 he with hmem | hmem
    · obtain ⟨r, -, rfl⟩ := List.mem_map.1 hmem
      exact .inl ⟨r, rfl⟩
    · obtain ⟨v, -, rfl⟩ := List.mem_map.1 hmem
      exact .inr ⟨v, rfl⟩
  · rw [notifyStep_errors, herr, filterMap_reportedError_error_out]

end Sys2Proof.Machine.CoreState
end

section
/-! PROOFS. The codec between integers and Bytes (41_alu.md R190, R191). -/

namespace Sys2Proof

theorem bitsW_neg (w : Nat) (k : Int) : bitsW w (-k) = -bitsW w k := BitVec.ofInt_neg

/-- Settles O44: complement plus one is negation, and `bits_W` of a negative value is the negation of `bits_W` of its
magnitude. -/
theorem intToBitsIsBitsW : Obligations.IntToBitsIsBitsW := by
  intro value width
  refine if_congr Iff.rfl (congrArg some ?_) rfl
  split
  next hneg =>
    rw [← BitVec.neg_eq_not_add, ← bitsW_natCast, ← bitsW_neg, Int.ofNat_natAbs_of_nonpos hneg.le, neg_neg]
  next hnonneg => rw [← bitsW_natCast, Int.natAbs_of_nonneg (not_lt.1 hnonneg)]

/-- Settles O45: where the first bit is set, the remaining bits are the value less `2^(W-1)`, so taking `2^(W-1)` away
from them takes `2^W` away from the value. -/
theorem bitsToIntIsSint : Obligations.BitsToIntIsSint := by
  intro w v hw
  have hpow : 2 ^ w = 2 * 2 ^ (w - 1) := (mul_pow_sub_one (by omega) 2).symm
  have hlt := v.isLt
  rw [bitsToInt, BitVec.toInt_eq_msb_cond]
  split
  next hmsb =>
    have hge : 2 ^ (w - 1) ≤ v.toNat := by simpa [BitVec.msb_eq_decide] using hmsb
    have hrest : v.toNat % 2 ^ (w - 1) = v.toNat - 2 ^ (w - 1) := by
      rw [Nat.mod_eq_sub_mod hge, Nat.mod_eq_of_lt (by omega)]
    rw [hrest]
    omega
  next => rfl

end Sys2Proof
end

section
/-! PROOFS. The raw datapath over bit sequences (41_alu.md R195, R196, R200, R204): the numbers that the ripple-carry
adder, the shift-and-add multiplier and the comparator compute. -/

namespace Sys2Proof

/-! ### Operands zero-padded to one length -/

theorem padBoth_fst_length (a b : Bits) : (padBoth a b).1.length = max a.length b.length :=
  padTo_length _ a (le_max_left ..)

theorem padBoth_snd_length (a b : Bits) : (padBoth a b).2.length = max a.length b.length :=
  padTo_length _ b (le_max_right ..)

theorem padBoth_length (a b : Bits) : (padBoth a b).1.length = (padBoth a b).2.length :=
  (padBoth_fst_length a b).trans (padBoth_snd_length a b).symm

theorem padBoth_fst_uint (a b : Bits) : (padBoth a b).1.uint = a.uint := padTo_uint _ a

theorem padBoth_snd_uint (a b : Bits) : (padBoth a b).2.uint = b.uint := padTo_uint _ b

/-! ### Addition -/

/-- The number of a sequence held least significant bit first, as `rippleAdd` and `mulLoop` read their operands. -/
theorem Bits.uint_reverse_cons (b : Bool) (v : List Bool) :
    Bits.uint (b :: v).reverse = 2 * Bits.uint v.reverse + b.toNat := by
  rw [List.reverse_cons, Bits.uint_append, Bits.uint_cons]
  simp [mul_comm]

/-- The full adder counts its inputs (R195). -/
theorem fullAdder_value (a b c : Bool) :
    (fullAdder a b c).1.toNat + 2 * (fullAdder a b c).2.toNat = a.toNat + b.toNat + c.toNat := by
  revert a b c
  decide

theorem rippleAdd_cons (a b c : Bool) (as bs : List Bool) :
    rippleAdd (a :: as) (b :: bs) c = (fullAdder a b c).1 :: rippleAdd as bs (fullAdder a b c).2 := rfl

/-- The ripple over operands of one length: the value, with the carry in, and the bit a carry out adds (R196). -/
theorem rippleAdd_spec (as bs : List Bool) (c : Bool) (h : as.length = bs.length) :
    Bits.uint (rippleAdd as bs c).reverse = Bits.uint as.reverse + Bits.uint bs.reverse + c.toNat ∧
    (rippleAdd as bs c).length = as.length +
      (if 2 ^ as.length ≤ Bits.uint as.reverse + Bits.uint bs.reverse + c.toNat then 1 else 0) := by
  induction as generalizing bs c with
  | nil =>
    obtain rfl : bs = [] := List.length_eq_zero_iff.1 h.symm
    cases c <;> decide
  | cons a as ih =>
    obtain ⟨b, bs, rfl⟩ := List.exists_cons_of_length_eq_add_one h.symm
    obtain ⟨huint, hlen⟩ := ih bs (fullAdder a b c).2 (Nat.succ_injective h)
    have hadder := fullAdder_value a b c
    have hsum := Bool.toNat_le (fullAdder a b c).1
    have hcarry : 2 ^ as.length ≤ Bits.uint as.reverse + Bits.uint bs.reverse + (fullAdder a b c).2.toNat ↔
        2 ^ as.length * 2 ≤ 2 * Bits.uint as.reverse + a.toNat + (2 * Bits.uint bs.reverse + b.toNat) + c.toNat := by
      omega
    simp only [rippleAdd_cons, Bits.uint_reverse_cons, List.length_cons, huint, hlen, pow_succ, hcarry]
    omega

theorem rawAdd_eq (a b : Bits) :
    rawAdd a b = (rippleAdd (padBoth a b).1.reverse (padBoth a b).2.reverse false).reverse := rfl

/-- Settles O46: the ripple over the operands zero-extended to one length, with no carry in. -/
theorem rippleAddIsExact : Obligations.RippleAddIsExact := by
  intro a b
  have hripple := rippleAdd_spec (padBoth a b).1.reverse (padBoth a b).2.reverse false
    (by simpa using padBoth_length a b)
  simpa [rawAdd_eq, padBoth_fst_length, padBoth_fst_uint, padBoth_snd_uint] using hripple

theorem rawAdd_uint (a b : Bits) : (rawAdd a b).uint = a.uint + b.uint := (rippleAddIsExact a b).1

theorem rawAdd_length (a b : Bits) : (rawAdd a b).length =
    max a.length b.length + (if 2 ^ max a.length b.length ≤ a.uint + b.uint then 1 else 0) := (rippleAddIsExact a b).2

theorem rawAdd_length_le (a b : Bits) : (rawAdd a b).length ≤ max a.length b.length + 1 := by
  rw [rawAdd_length]
  split <;> omega

/-! ### Multiplication -/

/-- The loop adds the multiplicand times the multiplier to the accumulator, whatever their lengths (R200). -/
theorem mulLoop_uint (bits : List Bool) (m acc : Bits) :
    (mulLoop bits m acc).uint = acc.uint + m.uint * Bits.uint bits.reverse := by
  induction bits generalizing m acc with
  | nil => simp [mulLoop]
  | cons bit rest ih =>
    have hshift : Bits.uint (m ++ [false]) = 2 * m.uint := by simp [Bits.uint_append, Bits.uint_cons, mul_comm]
    have hadd : Bits.uint (if bit then rawAdd acc m else acc) = acc.uint + m.uint * bit.toNat := by
      cases bit <;> simp [rawAdd_uint]
    rw [mulLoop, ih, hshift, hadd, Bits.uint_reverse_cons]
    ring

/-- An accumulator no longer than the multiplicand stays so: both grow by at most one bit a round. -/
theorem mulLoop_length_le (bits : List Bool) (m acc : Bits) (h : acc.length ≤ m.length) :
    (mulLoop bits m acc).length ≤ m.length + bits.length := by
  induction bits generalizing m acc with
  | nil => exact h
  | cons bit rest ih =>
    have hgrow : (if bit then rawAdd acc m else acc).length ≤ (m ++ [false]).length := by
      have hadd := rawAdd_length_le acc m
      rw [max_eq_right h] at hadd
      rw [List.length_append, List.length_singleton]
      split <;> omega
    have hrest := ih _ _ hgrow
    simp only [mulLoop, List.length_append, List.length_cons, List.length_nil] at hrest ⊢
    omega

theorem rawMultiply_uint (a b : Bits) : (rawMultiply a b).uint = a.uint * b.uint := by
  rw [rawMultiply, mulLoop_uint, Bits.uint_replicate_false, List.reverse_reverse, Nat.zero_add]

theorem rawMultiply_length_le (a b : Bits) : (rawMultiply a b).length ≤ a.length + b.length := by
  have h := mulLoop_length_le b.reverse a (List.replicate a.length false) (by rw [List.length_replicate])
  rwa [List.length_reverse] at h

/-- Settles O50: the product is exact for any lengths, and its length is at most the sum of the operands' lengths. -/
theorem rawMultiplyIsExact : Obligations.RawMultiplyIsExact := by
  intro a b h
  have hlen := rawMultiply_length_le a b
  exact ⟨rawMultiply_uint a b, by omega⟩

/-! ### Comparison -/

/-- Lexicographic order from the most significant bit is the order of the numbers, for sequences of one length. -/
theorem lexLess_eq : ∀ (a b : Bits), a.length = b.length → lexLess a b = decide (a.uint < b.uint)
  | [], [], _ => rfl
  | x :: a, y :: b, h => by
    have hlen : a.length = b.length := Nat.succ_injective h
    by_cases hxy : x = y
    · rw [lexLess, if_pos (beq_iff_eq.2 hxy), lexLess_eq a b hlen, Bits.uint_cons, Bits.uint_cons, hxy, hlen]
      exact decide_eq_decide.2 (Nat.add_lt_add_iff_left).symm
    · have ha := Bits.uint_lt a
      have hb := Bits.uint_lt b
      rw [hlen] at ha
      obtain rfl := Bool.eq_not.2 hxy
      rw [lexLess, Bits.uint_cons, Bits.uint_cons, hlen]
      cases y with
      | false =>
        rw [Bool.not_false, Bool.toNat_true, Bool.toNat_false]
        exact (decide_eq_false (by omega)).symm
      | true =>
        rw [Bool.not_true, Bool.toNat_true, Bool.toNat_false]
        exact (decide_eq_true (by omega)).symm
  | [], _ :: _, h => nomatch h
  | _ :: _, [], h => nomatch h

theorem lessThan_eq (a b : Bits) : lessThan a b = decide (a.uint < b.uint) := by
  rw [lessThan, lexLess_eq _ _ (padBoth_length a b), padBoth_fst_uint, padBoth_snd_uint]

theorem equal_eq (a b : Bits) : equal a b = decide (a.uint = b.uint) := by
  have hiff : (padBoth a b).1 = (padBoth a b).2 ↔ a.uint = b.uint := by
    rw [← padBoth_fst_uint a b, ← padBoth_snd_uint a b]
    exact ⟨congrArg Bits.uint, Bits.uint_injective _ _ (padBoth_length a b)⟩
  rw [equal, beq_eq_decide]
  exact decide_eq_decide.2 hiff

theorem lessOrEqual_eq (a b : Bits) : lessOrEqual a b = decide (a.uint ≤ b.uint) := by
  rw [lessOrEqual, lessThan_eq, equal_eq, ← Bool.decide_or]
  exact decide_eq_decide.2 le_iff_lt_or_eq.symm

/-- Settles O53: `lessThan` and `equal` compare the padded operands, which have the operands' numbers; the other three
are made of these two. -/
theorem comparatorIsUnsigned : Obligations.ComparatorIsUnsigned := by
  intro a b
  refine ⟨lessThan_eq a b, lessOrEqual_eq a b, ?_, ?_, equal_eq a b⟩
  · rw [greaterOrEqual, lessThan_eq, ← decide_not]
    exact decide_eq_decide.2 not_lt
  · rw [greaterThan, lessOrEqual_eq, ← decide_not]
    exact decide_eq_decide.2 not_le

end Sys2Proof
end

section
/-! PROOFS. The CPU layer of the ALU on cells (41_alu.md R197, R198, R203). -/

namespace Sys2Proof

/-- The low bits of a sequence as a Byte, whatever its length. -/
theorem Bits.toByte_toNat_mod (w : Nat) (v : Bits) : (v.toByte w).toNat = v.uint % 2 ^ w := BitVec.toNat_ofNat ..

/-- Settles O47: both sides have the number `a + b`; the ripple-carry result has W bits, or W + 1 where the sum does not
fit. -/
theorem addWIsRippleAdd : Obligations.AddWIsRippleAdd := by
  intro w a b
  have hlen := rawAdd_length (Byte.toBits a) (Byte.toBits b)
  rw [Byte.toBits_uint, Byte.toBits_uint, Byte.toBits_length, Byte.toBits_length, max_self] at hlen
  have hcarry : (addW a b).2 = true ↔ 2 ^ w ≤ a.toNat + b.toNat := by rw [addW_snd, decide_eq_true_iff]
  refine ⟨BitVec.eq_of_toNat_eq ?_, ?_, addW_fst_toNat a b, hcarry⟩
  · rw [addW_fst_toNat, Bits.toByte_toNat_mod, rawAdd_uint, Byte.toBits_uint, Byte.toBits_uint]
  · rw [hcarry, hlen]
    simp

/-- The most negative value is its own negation. -/
theorem neg_minimum (w : Nat) : neg (bitsW w ((2 ^ (w - 1) : Nat) : Int)) = bitsW w ((2 ^ (w - 1) : Nat) : Int) := by
  cases w with
  | zero => exact Subsingleton.elim _ _
  | succ n =>
    apply BitVec.eq_of_toNat_eq
    have hlt : 2 ^ n < 2 ^ (n + 1) := Nat.pow_lt_pow_succ one_lt_two
    rw [neg_toNat, bitsW_toNat, Nat.add_sub_cancel, Nat.mod_eq_of_lt hlt, Nat.mod_eq_of_lt] <;> omega

/-- Settles O48: `NEG` is the negation of bit vectors, whose number is `2^W` less the operand's, mod `2^W`. -/
theorem negIsTwosComplement : Obligations.NegIsTwosComplement := by
  intro w a
  refine ⟨?_, BitVec.eq_of_toNat_eq ?_, ?_, ?_, neg_minimum w⟩
  · rw [neg_eq, trunc, BitVec.setWidth_eq, BitVec.neg_eq_not_add]
  · rw [neg_toNat, bitsW_toNat]
  · rw [neg_eq, neg_eq, neg_neg]
  · rw [neg_eq, neg_zero]

/-- The switch is no part of the difference. -/
theorem subW_fst_switch {w : Nat} (bz bz' : Bool) (a b : Byte w) : (subW bz a b).1 = (subW bz' a b).1 := rfl

theorem decW_snd {w : Nat} (hw : 1 ≤ w) (bz : Bool) (a : Byte w) : (decW bz a).2 = decide (1 ≤ a.toNat) := by
  rw [decW, subW_snd, bitsW_one_toNat hw, if_neg one_ne_zero]

/-- Settles O52: the subtrahend is 1, so the carry is never the switch's. -/
theorem decWIgnoresSwitch : Obligations.DecWIgnoresSwitch := by
  intro w bz a hw
  refine ⟨rfl, decW_snd hw bz a, Prod.ext (subW_fst_switch ..) ?_⟩
  rw [decW_snd hw, decW_snd hw]

end Sys2Proof
end

section
/-! PROOFS. Control flow (44_control_flow.md R290 to R292): what the two forms of a jump do with an operand in range, and
under which condition each mnemonic is taken. -/

namespace Sys2Proof.Machine.CoreState

variable {cfg : Config} {s : CoreState cfg} {a : Operand} {i : Instr} {c : Cond} {cond : Bool}

/-! ### The `%` form -/

/-- An instruction that is the `%` jump of a condition: the register is read, and its errors are reported, only when the
jump is taken (R292). -/
theorem exec_of_jumpAbs (ha : a < 2 ^ cfg.width) (hc : s.taken c = cond)
    (hexec : exec i ⟨cfg, s⟩ = .next ⟨cfg, s.jumpAbs c (cell cfg a)⟩) :
    exec i ⟨cfg, s⟩ = .next ⟨cfg,
      if cond then { s.report (regFault cfg a) with pc := s.regValue a }
      else { s with pc := bitsW cfg.width (s.pc.toNat + 3) }⟩ := by
  rw [hexec, jumpAbs_eq, cell_toNat ha, hc]
  rfl

/-- Settles O25: every mnemonic's `%` form is the `%` jump of its condition. -/
theorem absoluteJumpsComplete : Obligations.AbsoluteJumpsComplete := by
  intro cfg s a ha
  exact ⟨exec_of_jumpAbs ha (taken_always s) rfl, exec_of_jumpAbs ha (taken_carrySet s) rfl,
    exec_of_jumpAbs ha (taken_carryClear s) rfl, exec_of_jumpAbs ha (taken_equal s) rfl,
    exec_of_jumpAbs ha (taken_equal s) rfl, exec_of_jumpAbs ha (taken_notEqual s) rfl,
    exec_of_jumpAbs ha (taken_notEqual s) rfl, exec_of_jumpAbs ha (taken_greater s) rfl,
    exec_of_jumpAbs ha (taken_less s) rfl⟩

/-! ### The `!` form -/

/-- `sint` of the cell an operand in range stands for (R11). -/
theorem cell_toInt (ha : a < 2 ^ cfg.width) : (cell cfg a).toInt = operandInt cfg a := by
  rw [BitVec.toInt_eq_msb_cond, BitVec.msb_eq_decide, cell_toNat ha, operandInt]
  simp only [decide_eq_true_eq]

/-- The target of a `!` form as a number, mod `2^W` (R291). -/
theorem relTarget_cell_toNat (s : CoreState cfg) (ha : a < 2 ^ cfg.width) :
    ((s.relTarget (cell cfg a)).toNat : Int) = (s.pc.toNat + 3 * operandInt cfg a) % (2 ^ cfg.width : Nat) := by
  rw [relTarget, bitsW_toNat_int, cell_toInt ha]

/-- An instruction that is the `!` jump of a condition writes pc and nothing else. -/
theorem exec_of_jumpRel (hc : s.taken c = cond)
    (hexec : exec i ⟨cfg, s⟩ = .next ⟨cfg, s.jumpRel c (cell cfg a)⟩) :
    exec i ⟨cfg, s⟩ = .next ⟨cfg,
      { s with pc := if cond then s.relTarget (cell cfg a) else bitsW cfg.width (s.pc.toNat + 3) }⟩ := by
  rw [hexec, jumpRel_eq, hc]
  rfl

/-- Settles O26: every mnemonic's `!` form is the `!` jump of its condition, and the nine have one target. -/
theorem relativeJumpsComplete : Obligations.RelativeJumpsComplete := by
  intro cfg s a ha
  exact ⟨s.relTarget (cell cfg a), relTarget_cell_toNat s ha,
    exec_of_jumpRel (taken_always s) rfl, exec_of_jumpRel (taken_carrySet s) rfl,
    exec_of_jumpRel (taken_carryClear s) rfl, exec_of_jumpRel (taken_equal s) rfl,
    exec_of_jumpRel (taken_equal s) rfl, exec_of_jumpRel (taken_notEqual s) rfl,
    exec_of_jumpRel (taken_notEqual s) rfl, exec_of_jumpRel (taken_greater s) rfl,
    exec_of_jumpRel (taken_less s) rfl⟩

end Sys2Proof.Machine.CoreState
end

section
/-! PROOFS. Exceptions (60_exceptions.md R357, R362): the whole step at an unassigned opcode. -/

namespace Sys2Proof.Machine.CoreState

variable {cfg : Config}

/-- An unknown opcode is one report and the pc advance (R167). -/
theorem unknownOpcode_eq (s : CoreState cfg) :
    s.unknownOpcode = { s.report [.errOpcode s.ir s.pc] with pc := s.nextPc } := rfl

/-- Reporting does not read ir, so the reports of a fetch join those made after it. -/
theorem report_withIr (es : List (ErrorRecord cfg.width)) (s : CoreState cfg) (opc : Byte cfg.width) :
    CoreState.report { s with ir := opc } es = { s.report es with ir := opc } := rfl

/-- What the fetch of an unassigned opcode and the ERR_OPCODE after it leave, before the notification: the two reports
are one, in the order of R362. -/
theorem unknownOpcode_fetched (s : CoreState cfg) :
    CoreState.unknownOpcode { s.report (ramFault cfg s.pc.toNat) with ir := s.ramValue s.pc.toNat } =
      { s.report (ramFault cfg s.pc.toNat ++ [.errOpcode (s.ramValue s.pc.toNat) s.pc]) with
        ir := s.ramValue s.pc.toNat, pc := s.nextPc } := by
  rw [unknownOpcode_eq, report_withIr, report_report]
  rfl

/-- Settles O8: the step is the fetch, the unknown opcode and the notification, which logs the pc already advanced. -/
theorem unknownOpcodeOnlyAdvances : Obligations.UnknownOpcodeOnlyAdvances := by
  intro cfg s hunassigned
  rw [step_of_unassigned s hunassigned, unknownOpcode_fetched]
  rfl

end Sys2Proof.Machine.CoreState
end

section
/-! PROOFS. Reset and the host's single step (70_reset_and_hazards.md R392, R395). The single step is a noninterference
claim: the state that no instruction reads is cut off from the rest as one value, and every operation of a step is shown
to commute with exchanging that value. -/

namespace Sys2Proof.Machine.CoreState

variable {cfg : Config}

/-! ### The state no instruction reads -/

/-- The part of a core's state that a step does not read: ir, the engine state, the step counter, the two logs. -/
structure Hidden (cfg : Config) where
  ir : Byte cfg.width
  engine : Engine
  steps : Nat
  errors : List (ErrorRecord cfg.width)
  events : List (Event cfg.width)

/-- The hidden part of a state. -/
def hidden (s : CoreState cfg) : Hidden cfg := ⟨s.ir, s.engine, s.steps, s.errors, s.events⟩

/-- `s` with its hidden part exchanged for `h`. -/
def withHidden (h : Hidden cfg) (s : CoreState cfg) : CoreState cfg :=
  { s with ir := h.ir, engine := h.engine, steps := h.steps, errors := h.errors, events := h.events }

/-- The hidden part with its engine state set by `g`, errors and events appended, and its ir and step counter kept. -/
def Hidden.after (g : Engine → Engine) (errs : List (ErrorRecord cfg.width)) (evs : List (Event cfg.width))
    (h : Hidden cfg) : Hidden cfg :=
  { h with engine := g h.engine, errors := h.errors ++ errs, events := h.events ++ evs }

/-- The hidden part with errors reported: each in both logs. -/
def Hidden.report (es : List (ErrorRecord cfg.width)) (h : Hidden cfg) : Hidden cfg := h.after id es (es.map .error)

theorem withHidden_hidden (s : CoreState cfg) : s.withHidden s.hidden = s := rfl

theorem Hidden.after_after (g g' : Engine → Engine) (errs errs' : List (ErrorRecord cfg.width))
    (evs evs' : List (Event cfg.width)) (h : Hidden cfg) :
    (h.after g errs evs).after g' errs' evs' = h.after (g' ∘ g) (errs ++ errs') (evs ++ evs') := by
  simp [Hidden.after]

/-- `f` reads nothing hidden: whatever the hidden part is, `f` does the same to the rest of the state, appends the same
errors and events, sets the engine state by `g`, and keeps ir and the step counter. -/
def IgnoresHidden (g : Engine → Engine) (f : CoreState cfg → CoreState cfg) : Prop :=
  ∀ s : CoreState cfg, ∃ (errs : List (ErrorRecord cfg.width)) (evs : List (Event cfg.width)),
    ∀ h : Hidden cfg, f (s.withHidden h) = (f s).withHidden (h.after g errs evs)

theorem IgnoresHidden.comp {g g' : Engine → Engine} {f f' : CoreState cfg → CoreState cfg}
    (hf' : IgnoresHidden g' f') (hf : IgnoresHidden g f) : IgnoresHidden (g' ∘ g) (f' ∘ f) := by
  intro s
  obtain ⟨errs, evs, h₁⟩ := hf s
  obtain ⟨errs', evs', h₂⟩ := hf' (f s)
  exact ⟨errs ++ errs', evs ++ evs', fun h => by
    rw [Function.comp_apply, h₁, h₂, Hidden.after_after, Function.comp_apply]⟩

/-! ### The instructions -/

theorem ignoresHidden_setPc (target : Byte cfg.width) : IgnoresHidden id (setPc (cfg := cfg) target) :=
  fun _ => ⟨[], [], fun h => by simp [setPc, withHidden, Hidden.after]⟩

theorem ignoresHidden_advance : IgnoresHidden id (advance (cfg := cfg)) := fun s => ignoresHidden_setPc s.nextPc s

theorem ignoresHidden_notifyStep : IgnoresHidden id (notifyStep (cfg := cfg)) :=
  fun s => ⟨[], [.step s.pc], fun h => by simp [notifyStep, emit, withHidden, Hidden.after]⟩

theorem ignoresHidden_move (d : DstMode) (m : SrcMode) (a b : Byte cfg.width) : IgnoresHidden id (move d m a b) := by
  cases d with
  | reg => exact fun s => ⟨_, _, fun h => by rw [move_reg_eq, move_reg_eq]; rfl⟩
  | mem => exact fun s => ⟨_, _, fun h => by rw [move_mem_eq, move_mem_eq]; rfl⟩

theorem ignoresHidden_binary (m : SrcMode) (f : Byte cfg.width → Byte cfg.width → AluResult cfg.width)
    (a b : Byte cfg.width) : IgnoresHidden id (binary m f a b) :=
  fun s => ⟨_, _, fun h => by rw [binary_eq, binary_eq]; rfl⟩

theorem ignoresHidden_unary (f : Byte cfg.width → AluResult cfg.width) (a : Byte cfg.width) :
    IgnoresHidden id (unary f a) :=
  fun s => ⟨_, _, fun h => by rw [unary_eq, unary_eq]; rfl⟩

theorem ignoresHidden_compare (m : SrcMode) (a b : Byte cfg.width) : IgnoresHidden id (compare m a b) :=
  fun s => ⟨_, _, fun h => by rw [compare_eq, compare_eq]; rfl⟩

/-- Whether a jump is taken depends on the flags alone. -/
theorem taken_withHidden (c : Cond) (h : Hidden cfg) (s : CoreState cfg) : (s.withHidden h).taken c = s.taken c := rfl

theorem ignoresHidden_jumpAbs (c : Cond) (a : Byte cfg.width) : IgnoresHidden id (jumpAbs c a) := by
  intro s
  by_cases hc : s.taken c
  · exact ⟨_, _, fun h => by rw [jumpAbs_eq, jumpAbs_eq, taken_withHidden, if_pos hc, if_pos hc]; rfl⟩
  · obtain ⟨errs, evs, hadv⟩ := ignoresHidden_advance s
    exact ⟨errs, evs, fun h => by
      rw [jumpAbs_eq, jumpAbs_eq, taken_withHidden, if_neg hc, if_neg hc, hadv]⟩

theorem ignoresHidden_jumpRel (c : Cond) (a : Byte cfg.width) : IgnoresHidden id (jumpRel c a) := by
  intro s
  refine ⟨[], [], fun h => ?_⟩
  rw [jumpRel_eq, jumpRel_eq, taken_withHidden]
  simp only [withHidden, Hidden.after, List.append_nil]
  rfl

theorem ignoresHidden_output (m : SrcMode) (a : Byte cfg.width) : IgnoresHidden id (output m a) := by
  intro s
  refine ⟨srcFault m a, (srcFault m a).map .error ++ [.out (s.srcValue m a)], fun h => ?_⟩
  rw [output_eq, output_eq, Hidden.after, ← List.append_assoc]
  rfl

theorem ignoresHidden_halt :
    IgnoresHidden (fun _ => .halted) (fun s : CoreState cfg => (s.setEngine .halted).advance) :=
  fun _ => ⟨[], [], fun h => by simp [setEngine, advance, setPc, nextPc, withHidden, Hidden.after]⟩

/-- What a step does to the engine state, by what its opcode decodes to: HLT halts, nothing else changes it (R395). -/
def engineAfter : Option Variant → Engine → Engine
  | some .hlt => fun _ => .halted
  | _ => id

theorem engineAfter_none : engineAfter none = id := rfl

theorem engineAfter_eq (op : Option Variant) (e : Engine) :
    engineAfter op e = if op = some .hlt then .halted else e := by
  unfold engineAfter
  split
  next => rfl
  next hne => exact (if_neg hne).symm

/-- Every instruction is a transformer of the state that reads nothing hidden, and only HLT sets the engine state. -/
theorem exec_ignoresHidden (cfg : Config) (i : Instr) :
    ∃ f : CoreState cfg → CoreState cfg, IgnoresHidden (engineAfter (some i.variant)) f ∧
      ∀ s, exec i ⟨cfg, s⟩ = .next ⟨cfg, f s⟩ := by
  cases i with
  | movRR a b | movRI a b | movRM a b | movMR a b | movMI a b =>
    exact ⟨_, ignoresHidden_move _ _ (cell cfg a) (cell cfg b), fun _ => rfl⟩
  | addRR a b | addRI a b | addRM a b =>
    exact ⟨_, ignoresHidden_binary _ (fun p q => aluResult (addW p q)) (cell cfg a) (cell cfg b), fun _ => rfl⟩
  | subRR a b | subRI a b | subRM a b =>
    exact ⟨_, ignoresHidden_binary _ (fun p q => aluResult (subW cfg.subCarryBZero p q)) (cell cfg a) (cell cfg b),
      fun _ => rfl⟩
  | mulRR a b | mulRI a b | mulRM a b =>
    exact ⟨_, ignoresHidden_binary _ (fun p q => mulResult (mulW p q)) (cell cfg a) (cell cfg b), fun _ => rfl⟩
  | incR a => exact ⟨_, ignoresHidden_unary (fun p => aluResult (incW p)) (cell cfg a), fun _ => rfl⟩
  | decR a =>
    exact ⟨_, ignoresHidden_unary (fun p => aluResult (decW cfg.subCarryBZero p)) (cell cfg a), fun _ => rfl⟩
  | cmpRR a b | cmpRI a b | cmpRM a b =>
    exact ⟨_, ignoresHidden_compare _ (cell cfg a) (cell cfg b), fun _ => rfl⟩
  | jmpR a | jcR a | jncR a | jeqR a | jzR a | jneR a | jnzR a | jgtrR a | jlssR a =>
    exact ⟨_, ignoresHidden_jumpAbs _ (cell cfg a), fun _ => rfl⟩
  | jmpD a | jcD a | jncD a | jeqD a | jzD a | jneD a | jnzD a | jgtrD a | jlssD a =>
    exact ⟨_, ignoresHidden_jumpRel _ (cell cfg a), fun _ => rfl⟩
  | outR a | outM a => exact ⟨_, ignoresHidden_output _ (cell cfg a), fun _ => rfl⟩
  | hlt => exact ⟨_, ignoresHidden_halt, fun _ => rfl⟩
  | nop => exact ⟨_, ignoresHidden_advance, fun _ => rfl⟩

/-! ### The step -/

/-- What follows the reports of a fetch appends to the logs after them. -/
theorem IgnoresHidden.after_reports {g : Engine → Engine} {f : CoreState cfg → CoreState cfg}
    (hf : IgnoresHidden g f) (es : List (ErrorRecord cfg.width)) (u : CoreState cfg) :
    ∃ (t : CoreState cfg) (errs : List (ErrorRecord cfg.width)) (evs : List (Event cfg.width)), ∀ h : Hidden cfg,
      f (u.withHidden (h.report es)) = t.withHidden (h.after g errs evs) := by
  obtain ⟨errs, evs, hrest⟩ := hf u
  exact ⟨f u, es ++ errs, es.map .error ++ evs, fun h => by rw [Hidden.report, hrest, Hidden.after_after]; rfl⟩

/-- The hidden part once the opcode cell of `s` is fetched into ir. -/
def Hidden.fetch (s : CoreState cfg) (h : Hidden cfg) : Hidden cfg := { h with ir := s.ramValue s.pc.toNat }

/-- The fetches of a variant write ir and, where they fail, the logs; they read nothing hidden. -/
theorem fetched_withHidden (v : Variant) (h : Hidden cfg) (s : CoreState cfg) :
    (s.withHidden h).fetched v =
      (s.fetched v).withHidden ((h.fetch s).report (ramFault cfg s.pc.toNat ++ s.operandFault v)) := rfl

/-- The unknown opcode reads ir only after the fetch has written it. -/
theorem unknownOpcode_fetched_withHidden (h : Hidden cfg) (s : CoreState cfg) :
    unknownOpcode { (s.withHidden h).report (ramFault cfg s.pc.toNat) with ir := s.ramValue s.pc.toNat } =
      s.advance.withHidden
        ((h.fetch s).report (ramFault cfg s.pc.toNat ++ [.errOpcode (s.ramValue s.pc.toNat) s.pc])) :=
  unknownOpcode_fetched (s.withHidden h)

/-- The step from `s`, whose opcode decodes to `op`, reads nothing hidden: under every hidden part it does the same to
the rest of the state and appends the same errors and events. -/
def StepIgnoresHidden (op : Option Variant) (s : CoreState cfg) : Prop :=
  ∃ (t : CoreState cfg) (errs : List (ErrorRecord cfg.width)) (evs : List (Event cfg.width)), ∀ h : Hidden cfg,
    step ⟨cfg, s.withHidden h⟩ = .next ⟨cfg, t.withHidden ((h.fetch s).after (engineAfter op) errs evs)⟩

theorem stepIgnoresHidden_of_opcode (s : CoreState cfg) (v : Variant)
    (hv : cfg.opcode v = (s.ramValue s.pc.toNat).toNat) : StepIgnoresHidden (some v) s := by
  obtain ⟨f, hf, hexec⟩ := exec_ignoresHidden cfg
    (v.instr (s.ramValue (s.operandAddr 1).toNat).toNat (s.ramValue (s.operandAddr 2).toNat).toNat)
  rw [Variant.instr_variant] at hf
  obtain ⟨t, errs, evs, hrest⟩ := (ignoresHidden_notifyStep.comp hf).after_reports
    (ramFault cfg s.pc.toNat ++ s.operandFault v) (s.fetched v)
  refine ⟨t, errs, evs, fun h => ?_⟩
  have hstep : step ⟨cfg, s.withHidden h⟩ = .next ⟨cfg, (notifyStep ∘ f) ((s.withHidden h).fetched v)⟩ :=
    (step_of_opcode (s.withHidden h) v hv).trans (congrArg notifyResult (hexec _))
  rw [hstep, fetched_withHidden, hrest]
  rfl

theorem stepIgnoresHidden_of_unassigned (s : CoreState cfg)
    (hv : ∀ v : Variant, cfg.opcode v ≠ (s.ramValue s.pc.toNat).toNat) : StepIgnoresHidden none s := by
  obtain ⟨t, errs, evs, hrest⟩ := ignoresHidden_notifyStep.after_reports
    (ramFault cfg s.pc.toNat ++ [.errOpcode (s.ramValue s.pc.toNat) s.pc]) s.advance
  refine ⟨t, errs, evs, fun h => ?_⟩
  rw [step_of_unassigned (s.withHidden h) hv, engineAfter_none, ← hrest, ← unknownOpcode_fetched_withHidden]
  rfl

/-- Every step reads nothing hidden, and its engine state is set by what its opcode decodes to. -/
theorem stepIgnoresHidden (s : CoreState cfg) :
    StepIgnoresHidden (decodeOpcode cfg (s.ramValue s.pc.toNat).toNat) s := by
  cases hop : decodeOpcode cfg (s.ramValue s.pc.toNat).toNat with
  | some v => exact stepIgnoresHidden_of_opcode s v (opcode_of_decodeOpcode hop)
  | none => exact stepIgnoresHidden_of_unassigned s ((decodeOpcode_eq_none _ _).1 hop)

/-- Settles O13: the step from `s` is the step under the hidden part `s` has, and the other step is the one under the
hidden part given. -/
theorem stepIgnoresHiddenState : Obligations.StepIgnoresHiddenState := by
  intro cfg s ir e n errs evs
  obtain ⟨t, newErrs, newEvs, hstep⟩ := stepIgnoresHidden s
  simp only [Hidden.after, engineAfter_eq] at hstep
  have hs := hstep s.hidden
  rw [withHidden_hidden] at hs
  exact ⟨_, newErrs, newEvs, hs, hs, rfl, rfl, rfl, rfl, hstep ⟨ir, e, n, errs, evs⟩⟩

/-! ### Reset -/

/-- Settles O38: each setting of the two booleans names its fields, and a cleared Memory reads zero in every cell. -/
theorem resetClearsWhatItNames : Obligations.ResetClearsWhatItNames :=
  fun _ _ => ⟨rfl, rfl, rfl, rfl, fun k => ⟨Memory.read_nil k, Memory.read_nil k⟩⟩

end Sys2Proof.Machine.CoreState
end

section
/-! PROOFS. Encoding and decoding against each other (30_encoding.md sections 1 and 4): as cells, and as the bits of a
program stream cut into Bytes (20_memory.md R80). -/

namespace Sys2Proof

open Machine Machine.CoreState

/-! ### Cells -/

theorem decode_encode {cfg : Config} {i : Instr} (h : i.WellFormed cfg) (rest : List (Byte cfg.width)) :
    decode cfg (encode cfg i ++ rest) = .ok (⟨i.canonical, cell cfg i.operandA, cell cfg i.operandB⟩, rest) := by
  obtain ⟨hop, hA, hB⟩ := h
  have hdecode := decode_cells cfg i.variant hop (cell cfg i.operandA) (cell cfg i.operandB) rest
  rwa [cell_toNat hA, cell_toNat hB] at hdecode

/-- Settles O1: the encoded cells decode to the canonical key with the operand cells, whose numbers are the operands. -/
theorem decodeEncodeAgree : Obligations.DecodeEncodeAgree := by
  intro cfg i rest h
  have ⟨_, hA, hB⟩ := h
  exact ⟨_, decode_encode h rest, rfl, cell_toNat hA, cell_toNat hB⟩

theorem wellFormed_instr {cfg : Config} {v : Variant} (hop : cfg.opcode v < 2 ^ cfg.width) (a b : Byte cfg.width) :
    (v.instr a.toNat b.toNat).WellFormed cfg := by
  refine ⟨by rwa [Instr.OpcodeFits, Variant.instr_variant], ?_, ?_⟩
  · rw [Variant.instr_operandA]
    split
    · exact a.isLt
    · exact Nat.two_pow_pos _
  · rw [Variant.instr_operandB]
    split
    · exact b.isLt
    · exact Nat.two_pow_pos _

/-- Encoding what a variant makes of two operand cells keeps the cells its arity uses. -/
theorem encode_instr (cfg : Config) (v : Variant) (a b : Byte cfg.width) :
    encode cfg (v.instr a.toNat b.toNat) =
      [bitsW cfg.width (cfg.opcode v), if 1 ≤ v.arity then a else 0, if v.arity = 2 then b else 0] := by
  have unless_used (p : Prop) [Decidable p] (c : Byte cfg.width) :
      bitsW cfg.width ((if p then c.toNat else 0 : Nat) : Int) = if p then c else 0 := by
    split <;> simp
  rw [encode, Variant.instr_variant, Variant.instr_operandA, Variant.instr_operandB, unless_used, unless_used]

/-- Settles O2: the cells decode only by a variant with the opcode cell's value, so that value fits the width. -/
theorem encodeDecodeAgree : Obligations.EncodeDecodeAgree := by
  intro cfg opc a b rest rest' d h
  rcases decodeRefusesExactlyUnassigned cfg opc a b rest with ⟨-, herr⟩ | ⟨v, hv, -, hok⟩
  · exact nomatch herr.symm.trans h
  · obtain ⟨rfl, rfl⟩ : Decoded.mk (v.instr a.toNat b.toNat) a b = d ∧ rest = rest' := by
      simpa using hok.symm.trans h
    have hopc : bitsW cfg.width (cfg.opcode v) = opc := by rw [hv, bitsW_toNat_self]
    refine ⟨rfl, rfl, rfl, ?_, wellFormed_instr (hv ▸ opc.isLt) a b, Variant.instr_canonical .., ?_⟩
    · rw [Decoded.cells, Variant.instr_variant, hopc]
    · rw [encode_instr, hopc, Variant.instr_variant]

/-- Settles O3: each word is cut into its cells and looked up in the default OPCODE_MAP. -/
theorem sampleWordsDecode : Obligations.SampleWordsDecode :=
  ⟨by decide, by decide, by decide, by decide, by decide, by decide⟩

/-! ### Bits -/

/-- Cells written out as bits and cut into Bytes again are the cells. -/
theorem bytesOf_flatMap_toBits {w : Nat} (cells : List (Byte w)) (rest : Bits) :
    (bytesOf w cells.length (cells.flatMap Byte.toBits ++ rest)).map (Bits.toByte w) = cells := by
  induction cells with
  | nil => rfl
  | cons c cells ih =>
    rw [List.flatMap_cons, List.length_cons, bytesOf, List.append_assoc, List.take_left' (Byte.toBits_length c),
      List.drop_left' (Byte.toBits_length c), List.map_cons, ih, Byte.toByte_toBits]

@[simp] theorem encodeBits_length (cfg : Config) (i : Instr) : (encodeBits cfg i).length = 3 * cfg.width := by
  simp only [encodeBits, encode, List.flatMap_cons, List.flatMap_nil, List.length_append, List.length_nil,
    Byte.toBits_length]
  omega

/-- The first three Bytes of a stream that begins with the word of a well-formed instruction decode to it. -/
theorem decode_encodeBits {cfg : Config} {i : Instr} (h : i.WellFormed cfg) (rest : Bits) :
    ∃ d : Decoded cfg,
      decode cfg ((bytesOf cfg.width 3 (encodeBits cfg i ++ rest)).map (Bits.toByte cfg.width)) = .ok (d, []) ∧
      d.instr = i.canonical := by
  have hcells : (bytesOf cfg.width 3 (encodeBits cfg i ++ rest)).map (Bits.toByte cfg.width) = encode cfg i :=
    bytesOf_flatMap_toBits (encode cfg i) rest
  have hdecode := decode_encode h []
  rw [List.append_nil] at hdecode
  exact ⟨_, by rw [hcells, hdecode], rfl⟩

/-- Settles O6: the stream word is the three cells of the instruction as bits. -/
theorem streamWordDecodes : Obligations.StreamWordDecodes := by
  intro cfg i h
  have hdecode := decode_encodeBits h []
  rw [List.append_nil] at hdecode
  exact ⟨encodeBits_length cfg i, hdecode⟩

end Sys2Proof
end

section
/-! PROOFS. The run loop and the command `run` (40_execution_cycle.md R170, 70_reset_and_hazards.md R394), one rule per
branch, and the induction over the loop. -/

namespace Sys2Proof.Machine.CoreState

variable {cfg : Config} {s t u : CoreState cfg}

/-- The state an operation answers is the only one it answers. -/
theorem next_injective {r : Result} (ht : r = .next ⟨cfg, t⟩) (hu : r = .next ⟨cfg, u⟩) : t = u := by
  simpa only [Host.Outcome.next.injEq, State.mk.injEq, heq_eq_eq, true_and] using ht.symm.trans hu

/-! ### The loop -/

theorem runLoop_of_not_running (limit fuel : Nat) (h : s.engine ≠ .running) :
    runLoop limit fuel ⟨cfg, s⟩ = .next ⟨cfg, s⟩ := by
  cases fuel with
  | zero => rfl
  | succ fuel => exact if_neg h

theorem runLoop_at_limit {limit : Nat} (fuel : Nat) (h : s.engine = .running) (hlimit : limit ≤ s.steps) :
    runLoop limit (fuel + 1) ⟨cfg, s⟩ = .next ⟨cfg, s.stopAtLimit⟩ :=
  (if_pos h).trans (if_pos hlimit)

theorem runLoop_of_step {limit : Nat} (fuel : Nat) (h : s.engine = .running) (hlimit : s.steps < limit)
    (hstep : step ⟨cfg, s⟩ = .next ⟨cfg, t⟩) :
    runLoop limit (fuel + 1) ⟨cfg, s⟩ = runLoop limit fuel ⟨cfg, t.countStep⟩ := by
  refine ((if_pos h).trans (if_neg (Nat.not_le.2 hlimit))).trans ?_
  rw [hstep]

/-- What counted steps and the stop at the limit keep, the loop keeps. -/
theorem runLoop_keeps {P : CoreState cfg → Prop} (hstop : ∀ u, P u → P u.stopAtLimit)
    (hstep : ∀ u v, P u → step ⟨cfg, u⟩ = .next ⟨cfg, v⟩ → P v.countStep) (limit fuel : Nat) (hs : P s) :
    ∃ t : CoreState cfg, runLoop limit fuel ⟨cfg, s⟩ = .next ⟨cfg, t⟩ ∧ P t := by
  induction fuel generalizing s with
  | zero => exact ⟨s, rfl, hs⟩
  | succ fuel ih =>
    by_cases hrun : s.engine = .running
    · rcases Nat.lt_or_ge s.steps limit with hlt | hge
      · obtain ⟨t, ht, -⟩ := step_logsGrow s
        rw [runLoop_of_step fuel hrun hlt ht]
        exact ih (hstep s t hs ht)
      · exact ⟨_, runLoop_at_limit fuel hrun hge, hstop s hs⟩
    · exact ⟨s, runLoop_of_not_running limit _ hrun, hs⟩

/-! ### The command -/

theorem runWith_of_address_too_long (limit : StepLimit) {start : Bits} (h : cfg.width < start.length)
    (s : CoreState cfg) : runWith limit start ⟨cfg, s⟩ = .next ⟨cfg, s.report [.hostAddrFormat start]⟩ := if_pos h

theorem runWith_of_address_fits (limit : StepLimit) {start : Bits} (h : start.length ≤ cfg.width) (s : CoreState cfg) :
    runWith limit start ⟨cfg, s⟩ = runLoop limit.val (limit.val + 1) ⟨cfg, s.beginRun (start.toByte cfg.width)⟩ :=
  if_neg (Nat.not_lt.2 h)

end Sys2Proof.Machine.CoreState
end

section
/-! PROOFS. The invariant of every state host commands can produce (20_memory.md R70, R75, R77, R78, 60_exceptions.md
R352): which Memory cell each variant may write, and that steps, runs and host commands keep both Memories canonical
and within capacity. -/

namespace Sys2Proof

/-- The mode of the operand a variant writes its result to, if it writes one (40_execution_cycle.md R168). -/
def Variant.dest : Variant → Option Machine.DstMode
  | .movRR | .movRI | .movRM | .addRR | .addRI | .addRM | .subRR | .subRI | .subRM | .mulRR | .mulRI | .mulRM
  | .incR | .decR => some .reg
  | .movMR | .movMI => some .mem
  | _ => none

/-- The variants whose result goes to register A. -/
abbrev Variant.regDests : List Variant :=
  [.movRR, .movRI, .movRM, .addRR, .addRI, .addRM, .subRR, .subRI, .subRM, .mulRR, .mulRI, .mulRM, .incR, .decR]

/-- The variants whose result goes to RAM cell A. -/
abbrev Variant.ramDests : List Variant := [.movMR, .movMI]

theorem Variant.dest_of_mem_regDests : ∀ v ∈ regDests, v.dest = some .reg := by decide

theorem Variant.dest_of_mem_ramDests : ∀ v ∈ ramDests, v.dest = some .mem := by decide

theorem Variant.dest_of_not_mem {v : Variant} (h : v ∉ regDests ++ ramDests) : v.dest = none := by
  revert h
  cases v <;> decide

end Sys2Proof

namespace Sys2Proof.Machine.CoreState

variable {cfg : Config} {s t u : CoreState cfg}

/-! ### What is written -/

/-- From `s` to `t` at most one Memory cell was written, by the mode of a destination: none, register `a` or RAM cell
`a`, each only if it exists. -/
inductive Writes (a : Nat) (s t : CoreState cfg) : Option DstMode → Prop
  | none (hreg : t.reg = s.reg) (hram : t.ram = s.ram) : Writes a s t none
  | reg (v : Byte cfg.width) (hreg : t.reg = storeBelow cfg.regCount s.reg a v) (hram : t.ram = s.ram) :
      Writes a s t (some .reg)
  | mem (v : Byte cfg.width) (hreg : t.reg = s.reg) (hram : t.ram = storeBelow cfg.ramCells s.ram a v) :
      Writes a s t (some .mem)

theorem writes_move (d : DstMode) (m : SrcMode) (a b : Byte cfg.width) (s : CoreState cfg) :
    Writes a.toNat s (s.move d m a b) (some d) := by
  cases d with
  | reg => rw [move_reg_eq]; exact .reg _ rfl rfl
  | mem => rw [move_mem_eq]; exact .mem _ rfl rfl

theorem writes_binary (m : SrcMode) (f : Byte cfg.width → Byte cfg.width → AluResult cfg.width) (a b : Byte cfg.width)
    (s : CoreState cfg) : Writes a.toNat s (s.binary m f a b) (some .reg) := by
  rw [binary_eq]; exact .reg _ rfl rfl

theorem writes_unary (f : Byte cfg.width → AluResult cfg.width) (a : Byte cfg.width) (s : CoreState cfg) :
    Writes a.toNat s (s.unary f a) (some .reg) := by
  rw [unary_eq]; exact .reg _ rfl rfl

theorem writes_compare (k : Nat) (m : SrcMode) (a b : Byte cfg.width) (s : CoreState cfg) :
    Writes k s (s.compare m a b) none := by
  rw [compare_eq]; exact .none rfl rfl

theorem writes_jumpAbs (k : Nat) (c : Cond) (a : Byte cfg.width) (s : CoreState cfg) :
    Writes k s (s.jumpAbs c a) none := by
  rw [jumpAbs_eq]; split <;> exact .none rfl rfl

theorem writes_jumpRel (k : Nat) (c : Cond) (a : Byte cfg.width) (s : CoreState cfg) :
    Writes k s (s.jumpRel c a) none := by
  rw [jumpRel_eq]; exact .none rfl rfl

theorem writes_output (k : Nat) (m : SrcMode) (a : Byte cfg.width) (s : CoreState cfg) :
    Writes k s (s.output m a) none := by
  rw [output_eq]; exact .none rfl rfl

/-- What each variant's instruction writes: the cell that operand cell A names, by the mode of its destination. -/
theorem exec_writes (v : Variant) (a b : Operand) (s : CoreState cfg) :
    ∃ t : CoreState cfg, exec (v.instr a b) ⟨cfg, s⟩ = .next ⟨cfg, t⟩ ∧ Writes (cell cfg a).toNat s t v.dest := by
  cases v with
  | movRR | movRI | movRM | movMR | movMI => exact ⟨_, rfl, writes_move ..⟩
  | addRR | addRI | addRM | subRR | subRI | subRM | mulRR | mulRI | mulRM => exact ⟨_, rfl, writes_binary ..⟩
  | incR | decR => exact ⟨_, rfl, writes_unary ..⟩
  | cmpRR | cmpRI | cmpRM => exact ⟨_, rfl, writes_compare ..⟩
  | jmpR | jcR | jncR | jeqR | jneR | jgtrR | jlssR => exact ⟨_, rfl, writes_jumpAbs ..⟩
  | jmpD | jcD | jncD | jeqD | jneD | jgtrD | jlssD => exact ⟨_, rfl, writes_jumpRel ..⟩
  | outR | outM => exact ⟨_, rfl, writes_output ..⟩
  | hlt | nop => exact ⟨_, rfl, .none rfl rfl⟩

/-- Neither the fetches before an instruction nor the notification after it write a Memory cell. -/
theorem Writes.of_fetched {a : Nat} {v : Variant} {d : Option DstMode} (h : Writes a (s.fetched v) t d) :
    Writes a s t.notifyStep d := by
  cases h with
  | none hreg hram => exact .none hreg hram
  | reg x hreg hram => exact .reg x hreg hram
  | mem x hreg hram => exact .mem x hreg hram

/-- What a step writes, by what its opcode decodes to: the cell that the operand cell at pc + 1 names. -/
theorem step_writes (s : CoreState cfg) :
    ∃ t : CoreState cfg, step ⟨cfg, s⟩ = .next ⟨cfg, t⟩ ∧
      Writes (s.ramValue (s.operandAddr 1).toNat).toNat s t
        ((decodeOpcode cfg (s.ramValue s.pc.toNat).toNat).bind Variant.dest) := by
  cases hop : decodeOpcode cfg (s.ramValue s.pc.toNat).toNat with
  | some v =>
    obtain ⟨t, hexec, ht⟩ := exec_writes v (s.ramValue (s.operandAddr 1).toNat).toNat
      (s.ramValue (s.operandAddr 2).toNat).toNat (s.fetched v)
    rw [cell_toNat (BitVec.isLt _)] at ht
    exact ⟨t.notifyStep, by rw [step_of_opcode s v (opcode_of_decodeOpcode hop), hexec]; rfl, ht.of_fetched⟩
  | none => exact ⟨_, step_of_unassigned s ((decodeOpcode_eq_none _ _).1 hop), .none rfl rfl⟩

theorem writes_of_step (h : step ⟨cfg, s⟩ = .next ⟨cfg, t⟩) :
    Writes (s.ramValue (s.operandAddr 1).toNat).toNat s t
      ((decodeOpcode cfg (s.ramValue s.pc.toNat).toNat).bind Variant.dest) := by
  obtain ⟨u, hu, hwrites⟩ := step_writes s
  exact next_injective hu h ▸ hwrites

/-! ### Canonical Memories -/

/-- Both Memories in canonical form, within their capacity and the address space (20_memory.md R70, R75, R77, R78). -/
structure MemoriesWf (s : CoreState cfg) : Prop where
  reg_wf : s.reg.wf = true
  ram_wf : s.ram.wf = true
  reg_within : s.reg.within (min cfg.regCount (2 ^ cfg.width)) = true
  ram_within : s.ram.within (min cfg.ramCells (2 ^ cfg.width)) = true

theorem Inv.memoriesWf (h : s.Inv) : s.MemoriesWf := ⟨h.reg_wf, h.ram_wf, h.reg_within, h.ram_within⟩

/-- The invariant is kept by what keeps the Memories and reports errors in both logs. -/
theorem Inv.of_memoriesWf_of_logsGrow (h : s.Inv) (hmem : t.MemoriesWf) (hlogs : LogsGrow s t) : t.Inv := by
  obtain ⟨newEvs, hev, herr⟩ := hlogs
  exact { reg_wf := hmem.reg_wf, ram_wf := hmem.ram_wf, reg_within := hmem.reg_within, ram_within := hmem.ram_within
          errors_reported := by rw [hev, herr, List.filterMap_append, h.errors_reported] }

theorem MemoriesWf.congr (h : s.MemoriesWf) (hreg : t.reg = s.reg) (hram : t.ram = s.ram) : t.MemoriesWf :=
  ⟨hreg ▸ h.reg_wf, hram ▸ h.ram_wf, hreg ▸ h.reg_within, hram ▸ h.ram_within⟩

theorem MemoriesWf.storeReg (h : s.MemoriesWf) (a v : Byte cfg.width)
    (hreg : t.reg = storeBelow cfg.regCount s.reg a.toNat v) (hram : t.ram = s.ram) : t.MemoriesWf where
  reg_wf := hreg ▸ wf_storeBelow _ _ _ _ h.reg_wf
  ram_wf := hram ▸ h.ram_wf
  reg_within := hreg ▸ within_storeBelow _ _ _ _ _ a.isLt h.reg_within
  ram_within := hram ▸ h.ram_within

theorem MemoriesWf.storeRam (h : s.MemoriesWf) (a v : Byte cfg.width)
    (hreg : t.reg = s.reg) (hram : t.ram = storeBelow cfg.ramCells s.ram a.toNat v) : t.MemoriesWf where
  reg_wf := hreg ▸ h.reg_wf
  ram_wf := hram ▸ wf_storeBelow _ _ _ _ h.ram_wf
  reg_within := hreg ▸ h.reg_within
  ram_within := hram ▸ within_storeBelow _ _ _ _ _ a.isLt h.ram_within

theorem MemoriesWf.of_writes {d : Option DstMode} (h : s.MemoriesWf) (a : Byte cfg.width)
    (hwrites : Writes a.toNat s t d) : t.MemoriesWf := by
  cases hwrites with
  | none hreg hram => exact h.congr hreg hram
  | reg v hreg hram => exact h.storeReg a v hreg hram
  | mem v hreg hram => exact h.storeRam a v hreg hram

theorem MemoriesWf.of_step (h : s.MemoriesWf) (hstep : step ⟨cfg, s⟩ = .next ⟨cfg, t⟩) : t.MemoriesWf :=
  h.of_writes _ (writes_of_step hstep)

/-! ### Steps -/

/-- Settles O31: no Memory lists a cell, and both logs are empty. -/
theorem invHoldsAtReset : Obligations.InvHoldsAtReset :=
  ⟨fun _ => ⟨rfl, rfl, rfl, rfl, rfl⟩, ⟨rfl, rfl, rfl, rfl, rfl⟩⟩

/-- Settles O32: a step writes at most one cell, below the capacity, and reports errors in both logs. -/
theorem stepKeepsInv : Obligations.StepKeepsInv := by
  intro cfg s t h hstep
  obtain ⟨u, hu, hlogs⟩ := step_logsGrow s
  obtain rfl := next_injective hu hstep
  exact h.of_memoriesWf_of_logsGrow (h.memoriesWf.of_step hstep) hlogs

theorem read_storeBelow_of_ne {w n a k : Nat} {m : Memory w} (hm : m.wf = true) (v : Byte w) (hk : k ≠ a ∨ n ≤ k) :
    (storeBelow n m a v).read k = m.read k := by
  unfold storeBelow
  split
  next ha => exact Memory.read_write_of_ne m v hm (by omega)
  next => rfl

/-- Settles O14: the mode of the destination follows from the opcode, and where the opcode is that of no variant with a
destination, there is none. -/
theorem stepWritesAtMostOneCell : Obligations.StepWritesAtMostOneCell := by
  intro cfg s t h hstep
  have hwrites := writes_of_step hstep
  have dest_of_opcode {v : Variant} (hv : cfg.opcode v = (s.ramValue s.pc.toNat).toNat) :
      (decodeOpcode cfg (s.ramValue s.pc.toNat).toNat).bind Variant.dest = v.dest := by
    rw [← hv, decodeOpcode_opcode, Option.bind_some]
  refine ⟨fun v hmem hv => ?_, fun v hmem hv => ?_, fun hother => ?_⟩
  · rw [dest_of_opcode hv, Variant.dest_of_mem_regDests v hmem] at hwrites
    cases hwrites with
    | reg x hreg hram => exact ⟨fun k hk => hreg ▸ read_storeBelow_of_ne h.reg_wf x hk, fun k => by rw [hram]⟩
  · rw [dest_of_opcode hv, Variant.dest_of_mem_ramDests v hmem] at hwrites
    cases hwrites with
    | mem x hreg hram => exact ⟨fun k => by rw [hreg], fun k hk => hram ▸ read_storeBelow_of_ne h.ram_wf x hk⟩
  · have hnone : (decodeOpcode cfg (s.ramValue s.pc.toNat).toNat).bind Variant.dest = none :=
      Option.bind_eq_none_iff.2 fun v hv =>
        Variant.dest_of_not_mem fun hmem => hother v hmem (opcode_of_decodeOpcode hv)
    rw [hnone] at hwrites
    cases hwrites with
    | none hreg hram => exact ⟨fun k => by rw [hreg], fun k => by rw [hram]⟩

/-! ### Host commands -/

theorem MemoriesWf.resetCommand (h : s.MemoriesWf) : ∀ clearRegs clearRam : Bool,
    (s.resetCommand clearRegs clearRam).MemoriesWf
  | true, true => ⟨rfl, rfl, rfl, rfl⟩
  | true, false => ⟨rfl, h.ram_wf, rfl, h.ram_within⟩
  | false, true => ⟨h.reg_wf, rfl, h.reg_within, rfl⟩
  | false, false => h.congr rfl rfl

theorem MemoriesWf.memWriteBits (h : s.MemoriesWf) (c : Byte cfg.width) (value : Bits) :
    (s.memWriteBits c value).MemoriesWf := by
  unfold CoreState.memWriteBits
  split
  · exact h.congr rfl rfl
  · rw [memWrite_eq]; exact h.storeRam c _ rfl rfl

theorem MemoriesWf.loadBytes (h : s.MemoriesWf) (bytes : List Bits) (a : Byte cfg.width) :
    (s.loadBytes bytes a).MemoriesWf := by
  induction bytes generalizing a s with
  | nil => exact h
  | cons v rest ih => exact ih (h.memWriteBits a v) _

theorem MemoriesWf.loadProgram (h : s.MemoriesWf) (bits address : Bits) :
    (s.loadProgram bits address).MemoriesWf := by
  unfold CoreState.loadProgram
  split
  · exact h.congr rfl rfl
  · split
    · exact h.congr rfl rfl
    · exact h.loadBytes _ _

/-- Every host command completes and keeps the Memories canonical and within capacity. -/
theorem MemoriesWf.command (h : s.MemoriesWf) (c : Command) :
    ∃ t : CoreState cfg, State.command c ⟨cfg, s⟩ = .next ⟨cfg, t⟩ ∧ t.MemoriesWf := by
  cases c with
  | reset clearRegs clearRam => exact ⟨_, rfl, h.resetCommand clearRegs clearRam⟩
  | loadProgram bits address => exact ⟨_, rfl, h.loadProgram bits address⟩
  | run start =>
    rcases Nat.lt_or_ge cfg.width start.length with hlong | hfits
    · exact ⟨_, runWith_of_address_too_long _ hlong s, h.congr rfl rfl⟩
    · have hbegin : (s.beginRun (start.toByte cfg.width)).MemoriesWf := h.congr rfl rfl
      obtain ⟨t, hloop, ht⟩ := runLoop_keeps (P := MemoriesWf) (fun u hu => hu.congr rfl rfl)
        (fun u v hu hv => (hu.of_step hv).congr rfl rfl) _ _ hbegin
      exact ⟨t, (runWith_of_address_fits _ hfits s).trans hloop, ht⟩
  | step =>
    obtain ⟨t, ht, -⟩ := step_logsGrow s
    exact ⟨t, ht, h.of_step ht⟩

/-- Settles O33: a command answers one state, whose logs grew and whose Memories are kept. -/
theorem commandKeepsInv : Obligations.CommandKeepsInv := by
  intro cfg s c h
  obtain ⟨t, ht, hmem⟩ := h.memoriesWf.command c
  obtain ⟨u, hu, hlogs⟩ := command_logsGrow c s
  obtain rfl := next_injective ht hu
  exact ⟨t, ht, h.of_memoriesWf_of_logsGrow hmem hlogs⟩

/-- Settles O34, by induction on the commands: construction satisfies the invariant and every command keeps it. -/
theorem reachableStatesSatisfyInv : Obligations.ReachableStatesSatisfyInv := by
  intro cfg s hreach
  induction hreach with
  | construct => exact invHoldsAtReset.1 cfg
  | command c _ hc ih =>
    obtain ⟨u, hu, hinv⟩ := commandKeepsInv cfg _ c ih
    exact next_injective hu hc ▸ hinv

end Sys2Proof.Machine.CoreState
end

section
/-! PROOFS. Whole steps (40_execution_cycle.md R160 to R162, R169): fetches inside and outside RAM, which errors a step
can report, which variants write a flag. -/

namespace Sys2Proof.Machine.CoreState

variable {cfg : Config} {s t : CoreState cfg}

/-! ### Completion and fetch -/

/-- Settles O11: every instruction has a shape that completes, and every step completes. -/
theorem everyStepCompletes : Obligations.EveryStepCompletes := by
  intro cfg s
  refine ⟨fun i => ?_, ?_⟩
  · obtain ⟨f, -, hexec⟩ := exec_shape i s
    exact ⟨f s, hexec⟩
  · obtain ⟨t, hstep, -⟩ := step_logsGrow s
    exact ⟨t, hstep⟩

theorem ramFault_of_lt {c : Operand} (h : c < cfg.ramCells) : ramFault cfg c = [] := if_pos h

theorem ramValue_of_lt {c : Operand} (h : c < cfg.ramCells) : s.ramValue c = s.ram.read c := if_pos h

theorem ramFault_of_ge (c : Byte cfg.width) (h : cfg.ramCells ≤ c.toNat) : ramFault cfg c.toNat = [.errAddr c] := by
  rw [ramFault, if_neg (Nat.not_lt.2 h), cell, bitsW_toNat_self]

theorem ramValue_of_ge {c : Operand} (h : cfg.ramCells ≤ c) : s.ramValue c = 0 := if_neg (Nat.not_lt.2 h)

/-- Fetches from RAM report nothing. -/
theorem fetched_of_lt (v : Variant) (h : ∀ k, k ≤ 2 → (s.operandAddr k).toNat < cfg.ramCells) :
    s.fetched v = { s with ir := s.ram.read s.pc.toNat } := by
  have hpc : s.pc.toNat < cfg.ramCells := by simpa using h 0 (by omega)
  have hoperands : s.operandFault v = [] := by
    simp [operandFault, ramFault_of_lt (h 1 (by omega)), ramFault_of_lt (h 2 (by omega))]
  rw [fetched, ramFault_of_lt hpc, hoperands, List.append_nil, report_nil, ramValue_of_lt hpc]

/-- Settles O7: the cells decode by the variant whose opcode the step fetches, and the fetches report nothing. -/
theorem stepRunsDecodedInstruction : Obligations.StepRunsDecodedInstruction := by
  intro cfg s d rest hcells hdecode
  have hpc : s.pc.toNat < cfg.ramCells := by simpa using hcells 0 (by omega)
  rw [operandAddr_zero] at hdecode
  rcases decodeRefusesExactlyUnassigned cfg _ _ _ [] with ⟨-, herr⟩ | ⟨v, hv, -, hok⟩
  · exact nomatch herr.symm.trans hdecode
  · obtain ⟨rfl, -⟩ : Decoded.mk _ _ _ = d ∧ [] = rest := by simpa using hok.symm.trans hdecode
    obtain ⟨f, -, hexec, hstep⟩ := step_shape_of_opcode s v (by rw [hv, ramValue_of_lt hpc])
    rw [fetched_of_lt v hcells, ramValue_of_lt (hcells 1 (by omega)), ramValue_of_lt (hcells 2 (by omega))] at hexec
    rw [fetched_of_lt v hcells] at hstep
    exact ⟨_, hexec, hstep⟩

/-- Settles O9: the cell read is zero, the opcode of HLT, which fetches no operand cell. -/
theorem fetchOutsideRamHalts : Obligations.FetchOutsideRamHalts := by
  intro cfg s hpc hhlt
  have hvalue : s.ramValue s.pc.toNat = 0 := ramValue_of_ge hpc
  have hop : cfg.opcode .hlt = (s.ramValue s.pc.toNat).toNat := by rw [hvalue, hhlt]; rfl
  have hfetched : s.fetched .hlt = { s.report [.errAddr s.pc] with ir := 0 } := by
    rw [fetched, hvalue, ramFault_of_ge _ hpc]; rfl
  rw [step_of_opcode s .hlt hop, hfetched, List.append_cons s.events]
  rfl

/-! ### What a step does to the state no instruction reads -/

/-- A step leaves the opcode cell in ir and the step counter as it was, and only HLT sets the engine state. -/
theorem hidden_of_step (h : step ⟨cfg, s⟩ = .next ⟨cfg, t⟩) :
    t.ir = s.ramValue s.pc.toNat ∧ t.steps = s.steps ∧
      t.engine = engineAfter (decodeOpcode cfg t.ir.toNat) s.engine := by
  obtain ⟨u, errs, evs, hstep⟩ := stepIgnoresHidden s
  obtain rfl := next_injective (hstep s.hidden) h
  exact ⟨rfl, rfl, rfl⟩

/-! ### Addressing errors -/

theorem errAddr_not_mem_regFault (c : Operand) (a : Byte cfg.width) : .errAddr a ∉ regFault cfg c := by
  unfold regFault
  split <;> simp

/-- No access to a RAM that covers the address space reports an error. -/
theorem ramFault_of_full (hfull : 2 ^ cfg.width ≤ cfg.ramCells) (c : Byte cfg.width) : ramFault cfg c.toNat = [] :=
  ramFault_of_lt (c.isLt.trans_le hfull)

theorem errAddr_not_mem_srcFault (hfull : 2 ^ cfg.width ≤ cfg.ramCells) (m : SrcMode) (c a : Byte cfg.width) :
    .errAddr a ∉ srcFault m c := by
  cases m with
  | reg => exact errAddr_not_mem_regFault _ a
  | imm => exact List.not_mem_nil
  | mem => rw [srcFault, ramFault_of_full hfull]; exact List.not_mem_nil

/-- From `s` to `t` no ERR_ADDR was reported. -/
def NoErrAddr (s t : CoreState cfg) : Prop := ∀ c, .errAddr c ∈ t.errors → .errAddr c ∈ s.errors

theorem NoErrAddr.of_report (es : List (ErrorRecord cfg.width)) (herr : t.errors = s.errors ++ es)
    (hes : ∀ c, .errAddr c ∉ es) : NoErrAddr s t :=
  fun c hc => (List.mem_append.1 (herr ▸ hc)).resolve_right (hes c)

theorem NoErrAddr.of_errors_eq (herr : t.errors = s.errors) : NoErrAddr s t := fun _ hc => herr ▸ hc

theorem ExecShape.noErrAddr {f : CoreState cfg → CoreState cfg} (hf : ExecShape f)
    (hfull : 2 ^ cfg.width ≤ cfg.ramCells) (s : CoreState cfg) : NoErrAddr s (f s) := by
  have hsrc := errAddr_not_mem_srcFault hfull
  have hreg := errAddr_not_mem_regFault (cfg := cfg)
  have hram := ramFault_of_full hfull
  cases hf with
  | move d m a b =>
    cases d with
    | reg => rw [move_reg_eq]; exact .of_report _ rfl fun c => by simp [hsrc, hreg]
    | mem => rw [move_mem_eq]; exact .of_report _ rfl fun c => by simp [hsrc, hram]
  | binary m f a b => rw [binary_eq]; exact .of_report _ rfl fun c => by simp [hsrc, hreg]
  | unary f a => rw [unary_eq]; exact .of_report _ rfl fun c => by simp [hreg]
  | compare m a b => rw [compare_eq]; exact .of_report _ rfl fun c => by simp [hsrc, hreg]
  | jumpAbs c a =>
    rw [jumpAbs_eq]
    split
    · exact .of_report _ rfl (hreg _)
    · exact .of_errors_eq rfl
  | jumpRel c a => rw [jumpRel_eq]; exact .of_errors_eq rfl
  | output m a => rw [output_eq]; exact .of_report _ rfl (hsrc m a)
  | halt => exact .of_errors_eq rfl
  | nop => exact .of_errors_eq rfl

theorem operandFault_of_full (hfull : 2 ^ cfg.width ≤ cfg.ramCells) (v : Variant) (s : CoreState cfg) :
    s.operandFault v = [] := by
  simp [operandFault, ramFault_of_full hfull]

/-- Settles O15: neither a fetch nor an instruction can leave the RAM, and an unknown opcode is no ERR_ADDR. -/
theorem fullRamNeverReportsAddress : Obligations.FullRamNeverReportsAddress := by
  intro cfg s t hfull h
  by_cases hop : ∃ v : Variant, cfg.opcode v = (s.ramValue s.pc.toNat).toNat
  · obtain ⟨v, hv⟩ := hop
    obtain ⟨f, hf, -, hstep⟩ := step_shape_of_opcode s v hv
    obtain rfl := next_injective hstep h
    have hfetch : NoErrAddr s (s.fetched v) :=
      .of_report _ rfl fun c => by simp [ramFault_of_full hfull, operandFault_of_full hfull]
    exact fun c hc => hfetch c (hf.noErrAddr hfull _ c hc)
  · obtain rfl := next_injective (step_of_unassigned s (not_exists.1 hop)) h
    exact NoErrAddr.of_report (s := s) [.errOpcode (s.ramValue s.pc.toNat) s.pc] (by simp [ramFault_of_full hfull])
      (by simp)

/-! ### Flags -/

/-- The variants that write the flags (10_state.md R37). -/
abbrev flagWriters : List Variant :=
  [.addRR, .addRI, .addRM, .subRR, .subRI, .subRM, .mulRR, .mulRI, .mulRM, .incR, .decR, .cmpRR, .cmpRI, .cmpRM]

theorem flags_move (d : DstMode) (m : SrcMode) (a b : Byte cfg.width) (s : CoreState cfg) :
    (s.move d m a b).flags = s.flags := by
  cases d with
  | reg => rw [move_reg_eq]; rfl
  | mem => rw [move_mem_eq]; rfl

theorem flags_jumpAbs (c : Cond) (a : Byte cfg.width) (s : CoreState cfg) : (s.jumpAbs c a).flags = s.flags := by
  rw [jumpAbs_eq]; split <;> rfl

theorem flags_jumpRel (c : Cond) (a : Byte cfg.width) (s : CoreState cfg) : (s.jumpRel c a).flags = s.flags := by
  rw [jumpRel_eq]; rfl

theorem flags_output (m : SrcMode) (a : Byte cfg.width) (s : CoreState cfg) : (s.output m a).flags = s.flags := by
  rw [output_eq]; rfl

theorem exec_flags {v : Variant} (hv : v ∉ flagWriters) (a b : Operand) (s : CoreState cfg) :
    ∃ t : CoreState cfg, exec (v.instr a b) ⟨cfg, s⟩ = .next ⟨cfg, t⟩ ∧ t.flags = s.flags := by
  cases v with
  | movRR | movRI | movRM | movMR | movMI => exact ⟨_, rfl, flags_move ..⟩
  | jmpR | jcR | jncR | jeqR | jneR | jgtrR | jlssR => exact ⟨_, rfl, flags_jumpAbs ..⟩
  | jmpD | jcD | jncD | jeqD | jneD | jgtrD | jlssD => exact ⟨_, rfl, flags_jumpRel ..⟩
  | outR | outM => exact ⟨_, rfl, flags_output ..⟩
  | hlt | nop => exact ⟨_, rfl, rfl⟩
  | _ => exact absurd (by decide) hv

theorem step_flags (hop : ∀ v ∈ flagWriters, cfg.opcode v ≠ (s.ramValue s.pc.toNat).toNat) :
    ∃ t : CoreState cfg, step ⟨cfg, s⟩ = .next ⟨cfg, t⟩ ∧ t.flags = s.flags := by
  by_cases hassigned : ∃ v : Variant, cfg.opcode v = (s.ramValue s.pc.toNat).toNat
  · obtain ⟨v, hv⟩ := hassigned
    obtain ⟨t, hexec, ht⟩ := exec_flags (fun hmem => hop v hmem hv) (s.ramValue (s.operandAddr 1).toNat).toNat
      (s.ramValue (s.operandAddr 2).toNat).toNat (s.fetched v)
    exact ⟨t.notifyStep, by rw [step_of_opcode s v hv, hexec]; rfl, ht⟩
  · exact ⟨_, step_of_unassigned s (not_exists.1 hassigned), rfl⟩

/-- Settles O24: after the step ir still holds the opcode fetched, and the fetches write no flag. -/
theorem onlyArithmeticWritesFlags : Obligations.OnlyArithmeticWritesFlags := by
  intro cfg s t h hop
  obtain ⟨hir, -, -⟩ := hidden_of_step h
  obtain ⟨u, hu, hflags⟩ := step_flags (hir ▸ hop)
  obtain rfl := next_injective hu h
  simpa [flags] using hflags

end Sys2Proof.Machine.CoreState
end

section
/-! PROOFS. Subtraction, multiplication, the shifter and literals (41_alu.md R190, R199, R201, R205, 30_encoding.md
R130): the W-bit results as differences and products of integers. -/

namespace Sys2Proof

/-! ### Subtraction -/

theorem subW_fst_eq {w : Nat} (bz : Bool) (a b : Byte w) : (subW bz a b).1 = a - b := by
  apply BitVec.eq_of_toNat_eq
  rw [subW_fst_toNat, BitVec.toNat_sub, Nat.add_comm]

theorem subW_snd_of_ne_zero {w : Nat} (bz : Bool) {a b : Byte w} (hb : b ≠ 0) :
    (subW bz a b).2 = (addW a (neg b)).2 := if_neg hb

/-- The carry is "no unsigned borrow" where the switch is not asked, or answers as if it were. -/
theorem subW_snd_eq_decide_le {w : Nat} {bz : Bool} {a b : Byte w} (h : b ≠ 0 ∨ bz = true) :
    (subW bz a b).2 = decide (b.toNat ≤ a.toNat) := by
  rw [subW_snd]
  split
  next hb =>
    have hzero : b = 0 := BitVec.eq_of_toNat_eq hb
    rw [hb, h.resolve_left (not_not.2 hzero)]
    exact (decide_eq_true (Nat.zero_le _)).symm
  next => rfl

theorem bitsW_add (w : Nat) (j k : Int) : bitsW w (j + k) = bitsW w j + bitsW w k := BitVec.ofInt_add j k

theorem bitsW_mul (w : Nat) (j k : Int) : bitsW w (j * k) = bitsW w j * bitsW w k := BitVec.ofInt_mul j k

@[simp] theorem bitsW_toInt_self {w : Nat} (v : Byte w) : bitsW w v.toInt = v := BitVec.ofInt_toInt

theorem bitsW_sub (w : Nat) (j k : Int) : bitsW w (j - k) = bitsW w j - bitsW w k := by
  rw [sub_eq_add_neg, bitsW_add, bitsW_neg, sub_eq_add_neg]

/-- Settles O49: the difference is `add(a, NEG(b))` by definition, and for a nonzero subtrahend so is the carry. -/
theorem subWIsAddOfNeg : Obligations.SubWIsAddOfNeg := by
  intro w bz a b
  obtain ⟨hsum, hcarry, -, -⟩ := addWIsRippleAdd w a (neg b)
  refine ⟨?_, hsum, fun hb => ⟨?_, ?_⟩, fun hb => if_pos hb, subW_snd_eq_decide_le (.inr rfl)⟩
  · rw [subW_fst_eq, bitsW_sub, bitsW_toNat_self, bitsW_toNat_self]
  · rw [subW_snd_of_ne_zero bz hb, hcarry]
  · rw [subW_snd_eq_decide_le (.inl hb), decide_eq_true_iff]

/-! ### Multiplication -/

/-- A product has the sign that the signs of its factors give the product of their magnitudes. -/
theorem mul_eq_ite_natAbs {w : Nat} (a b : Byte w) :
    a.toInt * b.toInt =
      if a.msb != b.msb then -((a.toInt.natAbs * b.toInt.natAbs : Nat) : Int)
      else ((a.toInt.natAbs * b.toInt.natAbs : Nat) : Int) := by
  have natAbs_eq (c : Byte w) : (c.toInt.natAbs : Int) = if c.msb then -c.toInt else c.toInt := by
    rw [BitVec.msb_eq_toInt]
    by_cases h : c.toInt < 0 <;> simp [h] <;> omega
  rw [Nat.cast_mul, natAbs_eq, natAbs_eq]
  cases a.msb <;> cases b.msb <;> simp

/-- The product of `MULW` is the signed product mod `2^W`: the magnitudes multiplied, negated where the signs differ. -/
theorem mulW_fst_eq {w : Nat} (a b : Byte w) : (mulW a b).1 = bitsW w (a.toInt * b.toInt) := by
  rw [mul_eq_ite_natAbs, apply_ite (bitsW w), bitsW_neg, ← neg_eq, ← magnitude_toNat_eq, ← magnitude_toNat_eq]
  rfl

theorem mulW_carry {w : Nat} (a b : Byte w) : (mulW a b).2.1 = decide (2 ^ w ≤ a.toInt.natAbs * b.toInt.natAbs) := by
  rw [← magnitude_toNat_eq, ← magnitude_toNat_eq]
  rfl

/-- Signed and unsigned product agree mod `2^W`, since `sint` and `uint` do. -/
theorem bitsW_toInt_mul_toInt {w : Nat} (a b : Byte w) :
    bitsW w (a.toInt * b.toInt) = bitsW w ((a.toNat * b.toNat : Nat) : Int) := by
  rw [Nat.cast_mul, bitsW_mul, bitsW_mul, bitsW_toInt_self, bitsW_toInt_self, bitsW_toNat_self, bitsW_toNat_self]

/-- Settles O51: the shift-and-add product of the magnitudes is their product, so its carry is the product's. -/
theorem mulWIsSignedProduct : Obligations.MulWIsSignedProduct := by
  intro w a b
  have hcarry : (mulW a b).2.1 = true ↔ 2 ^ w ≤ a.toInt.natAbs * b.toInt.natAbs := by
    rw [mulW_carry, decide_eq_true_iff]
  refine ⟨magnitude_toNat_eq a, mulW_fst_eq a b, ?_, ?_, hcarry, ?_⟩
  · rw [mulW_fst_eq, bitsW_toInt_mul_toInt]
  · rw [hcarry, rawMultiply_uint, Byte.toBits_uint, Byte.toBits_uint, magnitude_toNat_eq, magnitude_toNat_eq]
  · have toNat_eq_zero (c : Byte w) : c.toNat = 0 ↔ c = 0 := BitVec.toNat_inj (y := 0)
    rw [toNat_eq_zero, toNat_eq_zero]
    exact decide_eq_true_iff

/-! ### The shifter -/

theorem Bits.uint_append_singleton (v : Bits) (b : Bool) : Bits.uint (v ++ [b]) = 2 * v.uint + b.toNat := by
  simp [Bits.uint_append, Bits.uint_cons, mul_comm]

theorem shiftLeft_uint (a : Bits) : (shiftLeft a).uint = 2 * a.uint := Bits.uint_append_singleton a false

/-- Dropping the most significant bit of a sequence takes its number mod the power that bit stands for. -/
theorem Bits.uint_drop_one (v : Bits) : Bits.uint (v.drop 1) = v.uint % 2 ^ (v.length - 1) := by
  cases v with
  | nil => rfl
  | cons b v =>
    rw [List.drop_one, List.tail_cons, Bits.uint_cons, List.length_cons, Nat.add_sub_cancel,
      Nat.mul_add_mod_self_right, Nat.mod_eq_of_lt (Bits.uint_lt v)]

theorem Bits.uint_dropLast (v : Bits) : Bits.uint v.dropLast = v.uint / 2 := by
  rcases List.eq_nil_or_concat' v with rfl | ⟨v, b, rfl⟩
  · rfl
  · have hb := Bool.toNat_le b
    rw [List.dropLast_concat, Bits.uint_append_singleton]
    omega

/-- Settles O54: the appended bit doubles, the dropped last bit halves, and a zero at the top adds nothing. -/
theorem shifterDoublesAndHalves : Obligations.ShifterDoublesAndHalves := by
  intro a
  have hlen : (shiftLeft a).length = a.length + 1 := List.length_append
  refine ⟨hlen, shiftLeft_uint a, ?_, ?_, ?_⟩
  · rw [Bits.uint_drop_one, shiftLeft_uint, hlen, Nat.add_sub_cancel]
  · cases a <;> simp [shiftRight]
  · cases a with
    | nil => rfl
    | cons b v => rw [shiftRight, Bits.uint_cons, Bits.uint_dropLast, Bool.toNat_false, Nat.zero_mul, Nat.zero_add]

/-! ### Literals -/

/-- Settles O59: in the range of literals the magnitude fits the width, so `intToBits` answers. -/
theorem literalRangeIsChecked : Obligations.LiteralRangeIsChecked := by
  intro cfg line k
  have hpow : (2 : Int) ^ cfg.width = 2 * 2 ^ (cfg.width - 1) := (mul_pow_sub_one (Nat.ne_of_gt cfg.width_pos) 2).symm
  rw [Machine.valueToCell]
  split
  next hrange =>
    have habs : (k.natAbs : Int) < 2 ^ cfg.width := by omega
    rw [intToBitsIsBitsW, if_pos (by exact_mod_cast habs)]
  next => rfl

end Sys2Proof

namespace Sys2Proof.Machine

/-! ### CMP and the order jumps -/

/-- The flags of a subtraction: zero for equal operands, the sign of the difference. -/
theorem flags_subW {w : Nat} (bz : Bool) (p q : Byte w) :
    (aluResult (subW bz p q)).flags = ⟨(subW bz p q).2, decide (p = q), (p - q).msb⟩ := by
  have hzero : p - q = 0 ↔ p = q := sub_eq_zero
  rw [aluResult, subW_fst_eq, decide_eq_decide.2 hzero]

/-- A signed difference that W bits hold is the difference of bit vectors. -/
theorem toInt_sub_of_range {w : Nat} (hw : 1 ≤ w) {p q : Byte w} (hlo : -(2 ^ (w - 1) : Int) ≤ p.toInt - q.toInt)
    (hhi : p.toInt - q.toInt < 2 ^ (w - 1)) : (p - q).toInt = p.toInt - q.toInt := by
  have hpow : ((2 ^ w : Nat) : Int) = 2 * 2 ^ (w - 1) := by
    exact_mod_cast (mul_pow_sub_one (Nat.ne_of_gt hw) 2).symm
  rw [BitVec.toInt_sub]
  apply Int.bmod_eq_of_le <;> omega

/-- Settles O28: unsigned, carry is `q ≤ p`; signed, S is the sign of the exact difference; Z excludes equality. -/
theorem compareThenJumpOrders : Obligations.CompareThenJumpOrders := by
  intro w bz p q hw f
  have hf : f = ⟨(subW bz p q).2, decide (p = q), (p - q).msb⟩ := flags_subW bz p q
  rw [hf]
  refine ⟨fun hq => ?_, fun ⟨hlo, hhi⟩ => ?_⟩
  · have heq : p = q ↔ p.toNat = q.toNat := BitVec.toNat_inj.symm
    rw [subW_snd_eq_decide_le hq]
    constructor
    · rw [Cond.holds, Bool.eq_iff_iff]
      simp only [Bool.and_eq_true, Bool.not_eq_true', decide_eq_true_eq, decide_eq_false_iff_not, heq]
      omega
    · rw [Cond.holds, ← decide_not]
      exact decide_eq_decide.2 not_le
  · have heq : p = q ↔ p.toInt = q.toInt := BitVec.toInt_inj.symm
    rw [BitVec.msb_eq_toInt, toInt_sub_of_range hw hlo hhi]
    constructor
    · rw [Cond.holds, Bool.eq_iff_iff]
      simp only [Bool.and_eq_true, Bool.not_eq_true', decide_eq_true_eq, decide_eq_false_iff_not, heq]
      omega
    · exact decide_eq_decide.2 sub_neg

end Sys2Proof.Machine
end

section
/-! PROOFS. Each instruction from its operand cells to its next state (40_execution_cycle.md R168, 42_data_movement.md,
43_arithmetic.md, 45_output_halt.md): one rule per shape, for every source mode, and the ALU result it stores. -/

namespace Sys2Proof.Machine.CoreState

variable {cfg : Config} {s : CoreState cfg} {i : Instr} {m : SrcMode} {a b : Operand} {c q : Byte cfg.width}
  {errs : List (ErrorRecord cfg.width)}

/-! ### Source operands -/

/-- The source operand cell `c` in mode `m` has the value `q`, and reading it reports `errs`. -/
structure Reads (s : CoreState cfg) (m : SrcMode) (c q : Byte cfg.width) (errs : List (ErrorRecord cfg.width)) :
    Prop where
  value_eq : s.srcValue m c = q
  fault_eq : srcFault m c = errs

theorem reads_reg (s : CoreState cfg) (hb : b < 2 ^ cfg.width) :
    Reads s .reg (cell cfg b) (s.regValue b) (regFault cfg b) :=
  ⟨by rw [srcValue, cell_toNat hb], by rw [srcFault, cell_toNat hb]⟩

theorem reads_imm (s : CoreState cfg) (c : Byte cfg.width) : Reads s .imm c c [] := ⟨rfl, rfl⟩

theorem reads_mem (s : CoreState cfg) (hb : b < 2 ^ cfg.width) :
    Reads s .mem (cell cfg b) (s.ramValue b) (ramFault cfg b) :=
  ⟨by rw [srcValue, cell_toNat hb], by rw [srcFault, cell_toNat hb]⟩

/-! ### Data movement -/

/-- An instruction that is a move to a register, for every source mode. -/
theorem exec_of_moveReg (hs : s.reg.wf = true) (ha : a < 2 ^ cfg.width) (hsrc : Reads s m c q errs)
    (hexec : exec i ⟨cfg, s⟩ = .next ⟨cfg, s.move .reg m (cell cfg a) c⟩) {v : Nat} (hv : q.toNat = v) :
    ∃ reg' : Memory cfg.width,
      exec i ⟨cfg, s⟩ = .next ⟨cfg,
        { s.report (errs ++ regFault cfg a) with reg := reg', pc := bitsW cfg.width (s.pc.toNat + 3) }⟩ ∧
      Stored cfg.regCount s.reg reg' a v := by
  refine ⟨_, ?_, hv ▸ stored_storeBelow cfg.regCount s.reg a q hs⟩
  rw [hexec, move_reg_eq, hsrc.fault_eq, hsrc.value_eq, cell_toNat ha]
  rfl

/-- Settles O17: the three moves to a register, by source mode. -/
theorem movToRegisterCompletes : Obligations.MovToRegisterCompletes := by
  intro cfg s a b hs ha hb
  exact ⟨exec_of_moveReg hs ha (reads_reg s hb) rfl rfl, exec_of_moveReg hs ha (reads_imm s _) rfl (cell_toNat hb),
    exec_of_moveReg hs ha (reads_mem s hb) rfl rfl⟩

/-- An instruction that is a move to RAM, for every source mode. -/
theorem exec_of_moveRam (hs : s.ram.wf = true) (ha : a < 2 ^ cfg.width) (hsrc : Reads s m c q errs)
    (hexec : exec i ⟨cfg, s⟩ = .next ⟨cfg, s.move .mem m (cell cfg a) c⟩) {v : Nat} (hv : q.toNat = v) :
    ∃ ram' : Memory cfg.width,
      exec i ⟨cfg, s⟩ = .next ⟨cfg,
        { s.report (errs ++ ramFault cfg a) with ram := ram', pc := bitsW cfg.width (s.pc.toNat + 3) }⟩ ∧
      Stored cfg.ramCells s.ram ram' a v := by
  refine ⟨_, ?_, hv ▸ stored_storeBelow cfg.ramCells s.ram a q hs⟩
  rw [hexec, move_mem_eq, hsrc.fault_eq, hsrc.value_eq, cell_toNat ha]
  rfl

/-- Settles O18: the two moves to RAM, by source mode. -/
theorem movToMemoryCompletes : Obligations.MovToMemoryCompletes := by
  intro cfg s a b hs ha hb
  exact ⟨exec_of_moveRam hs ha (reads_reg s hb) rfl rfl, exec_of_moveRam hs ha (reads_imm s _) rfl (cell_toNat hb)⟩

/-! ### ALU results as numbers -/

/-- An ALU result is the number `value` with the carry `c`, the zero flag `z` and the sign of `value`. -/
structure ResultIs {w : Nat} (r : AluResult w) (value : Nat) (c z : Bool) : Prop where
  value_eq : r.value.toNat = value
  flags_eq : r.flags = ⟨c, z, decide (2 ^ (w - 1) ≤ value)⟩

/-- The flags of R210 from the number of the result. -/
theorem resultIs_aluResult {w value : Nat} {r : Byte w × Bool} {c z : Bool} (hv : r.1.toNat = value) (hc : r.2 = c)
    (hz : decide (value = 0) = z) : ResultIs (aluResult r) value c z := by
  have hzero : r.1 = 0 ↔ value = 0 := by rw [← hv]; exact BitVec.toNat_inj.symm
  refine ⟨hv, ?_⟩
  rw [aluResult, BitVec.msb_eq_decide, hv, hc, ← hz, decide_eq_decide.2 hzero]

theorem resultIs_addW {w : Nat} (p q : Byte w) :
    ResultIs (aluResult (addW p q)) ((p.toNat + q.toNat) % 2 ^ w) (decide (2 ^ w ≤ p.toNat + q.toNat))
      (decide ((p.toNat + q.toNat) % 2 ^ w = 0)) :=
  resultIs_aluResult (addW_fst_toNat p q) (addW_snd p q) rfl

/-- A difference mod `2^w` is zero only for equal operands. -/
theorem sub_mod_eq_zero_iff {w : Nat} (p q : Byte w) : (p.toNat + (2 ^ w - q.toNat)) % 2 ^ w = 0 ↔ p = q := by
  have hsub : p - q = 0 ↔ p = q := sub_eq_zero
  rw [← subW_fst_toNat true, subW_fst_eq, ← hsub]
  exact BitVec.toNat_inj (y := 0)

theorem resultIs_subW {w : Nat} (bz : Bool) (p q : Byte w) :
    ResultIs (aluResult (subW bz p q)) ((p.toNat + (2 ^ w - q.toNat)) % 2 ^ w)
      (if q.toNat = 0 then bz else decide (q.toNat ≤ p.toNat)) (decide (p.toNat = q.toNat)) := by
  refine resultIs_aluResult (subW_fst_toNat bz p q) (subW_snd bz p q) ?_
  rw [decide_eq_decide, sub_mod_eq_zero_iff, BitVec.toNat_inj]

theorem resultIs_mulW {w : Nat} (p q : Byte w) :
    ResultIs (mulResult (mulW p q)) (p.toInt * q.toInt % (2 ^ w : Nat)).toNat
      (decide (2 ^ w ≤ p.toInt.natAbs * q.toInt.natAbs)) (decide (p.toInt = 0 ∨ q.toInt = 0)) := by
  have hv : (mulW p q).1.toNat = (p.toInt * q.toInt % (2 ^ w : Nat)).toNat := by
    rw [mulW_fst_eq, ← bitsW_toNat_int, Int.toNat_natCast]
  have hzero (c : Byte w) : c = 0 ↔ c.toInt = 0 := by rw [← BitVec.toInt_inj]; simp
  refine ⟨hv, ?_⟩
  have hz : (mulW p q).2.2 = decide (p.toInt = 0 ∨ q.toInt = 0) := decide_eq_decide.2 (or_congr (hzero p) (hzero q))
  rw [mulResult, mulW_carry, BitVec.msb_eq_decide, hv, hz]

theorem resultIs_incW {w : Nat} (hw : 1 ≤ w) (p : Byte w) :
    ResultIs (aluResult (incW p)) ((p.toNat + 1) % 2 ^ w) (decide (p.toNat = 2 ^ w - 1))
      (decide (p.toNat = 2 ^ w - 1)) := by
  have hp := p.isLt
  have hone := bitsW_one_toNat hw
  refine resultIs_aluResult ?_ ?_ ?_
  · rw [incW, addW_fst_toNat, hone]
  · rw [incW, addW_snd, hone]
    exact decide_eq_decide.2 (by omega)
  · refine decide_eq_decide.2 ⟨fun h => ?_, fun h => ?_⟩
    · have := Nat.le_of_dvd (Nat.succ_pos _) (Nat.dvd_of_mod_eq_zero h)
      omega
    · rw [h, Nat.sub_add_cancel (Nat.two_pow_pos w), Nat.mod_self]

theorem resultIs_decW {w : Nat} (hw : 1 ≤ w) (bz : Bool) (p : Byte w) :
    ResultIs (aluResult (decW bz p)) ((p.toNat + (2 ^ w - 1)) % 2 ^ w) (decide (p.toNat ≠ 0))
      (decide (p.toNat = 1)) := by
  obtain ⟨hv, hflags⟩ := resultIs_subW bz p (bitsW w 1)
  rw [bitsW_one_toNat hw] at hv hflags
  refine ⟨hv, hflags.trans ?_⟩
  rw [if_neg one_ne_zero, decide_eq_decide.2 Nat.one_le_iff_ne_zero]

/-! ### Arithmetic and comparison -/

/-- An instruction that is binary arithmetic on register A, for every source mode. -/
theorem arithCompletes_of_binary {f : Byte cfg.width → Byte cfg.width → AluResult cfg.width} {value : Nat}
    {carry zero : Bool} (hs : s.reg.wf = true) (ha : a < 2 ^ cfg.width) (hsrc : Reads s m c q errs)
    (hexec : exec i ⟨cfg, s⟩ = .next ⟨cfg, s.binary m f (cell cfg a) c⟩)
    (hr : ResultIs (f (s.regValue a) q) value carry zero) :
    ArithCompletes i s a (regFault cfg a ++ errs ++ regFault cfg a) value carry zero := by
  refine ⟨_, ?_, hr.value_eq ▸ stored_storeBelow cfg.regCount s.reg a _ hs⟩
  rw [hexec, binary_eq, hsrc.fault_eq, hsrc.value_eq, cell_toNat ha, hr.flags_eq]
  rfl

/-- An instruction that is unary arithmetic on register A. -/
theorem arithCompletes_of_unary {f : Byte cfg.width → AluResult cfg.width} {value : Nat} {carry zero : Bool}
    (hs : s.reg.wf = true) (ha : a < 2 ^ cfg.width)
    (hexec : exec i ⟨cfg, s⟩ = .next ⟨cfg, s.unary f (cell cfg a)⟩)
    (hr : ResultIs (f (s.regValue a)) value carry zero) :
    ArithCompletes i s a (regFault cfg a ++ regFault cfg a) value carry zero := by
  refine ⟨_, ?_, hr.value_eq ▸ stored_storeBelow cfg.regCount s.reg a _ hs⟩
  rw [hexec, unary_eq, cell_toNat ha, hr.flags_eq]
  rfl

/-- Settles O19: the three additions, by source mode. -/
theorem addCompletes : Obligations.AddCompletes := by
  intro cfg s a b hs ha hb
  have himm := resultIs_addW (s.regValue a) (cell cfg b)
  rw [cell_toNat hb] at himm
  exact ⟨arithCompletes_of_binary hs ha (reads_reg s hb) rfl (resultIs_addW _ _),
    arithCompletes_of_binary hs ha (reads_imm s _) rfl himm,
    arithCompletes_of_binary hs ha (reads_mem s hb) rfl (resultIs_addW _ _)⟩

/-- Settles O20: the three subtractions, by source mode. -/
theorem subCompletes : Obligations.SubCompletes := by
  intro cfg s a b hs ha hb
  have himm := resultIs_subW cfg.subCarryBZero (s.regValue a) (cell cfg b)
  rw [cell_toNat hb] at himm
  exact ⟨arithCompletes_of_binary hs ha (reads_reg s hb) rfl (resultIs_subW _ _ _),
    arithCompletes_of_binary hs ha (reads_imm s _) rfl himm,
    arithCompletes_of_binary hs ha (reads_mem s hb) rfl (resultIs_subW _ _ _)⟩

/-- Settles O21: the three multiplications, by source mode. -/
theorem mulCompletes : Obligations.MulCompletes := by
  intro cfg s a b hs ha hb
  have himm := resultIs_mulW (s.regValue a) (cell cfg b)
  rw [cell_toInt hb] at himm
  exact ⟨arithCompletes_of_binary hs ha (reads_reg s hb) rfl (resultIs_mulW _ _),
    arithCompletes_of_binary hs ha (reads_imm s _) rfl himm,
    arithCompletes_of_binary hs ha (reads_mem s hb) rfl (resultIs_mulW _ _)⟩

/-- Settles O22: both are unary, with 1 as the second operand. -/
theorem incDecComplete : Obligations.IncDecComplete := by
  intro cfg s a hs ha
  exact ⟨arithCompletes_of_unary hs ha rfl (resultIs_incW cfg.width_pos _),
    arithCompletes_of_unary hs ha rfl (resultIs_decW cfg.width_pos _ _)⟩

/-- An instruction that is a compare with register A, for every source mode: the flags are those of the subtraction. -/
theorem exec_of_compare (ha : a < 2 ^ cfg.width) (hsrc : Reads s m c q errs)
    (hexec : exec i ⟨cfg, s⟩ = .next ⟨cfg, s.compare m (cell cfg a) c⟩) {v : Nat} (hv : q.toNat = v) :
    exec i ⟨cfg, s⟩ = .next ⟨cfg,
      { s.report (regFault cfg a ++ errs) with
        carry := if v = 0 then cfg.subCarryBZero else decide (v ≤ (s.regValue a).toNat)
        zero := decide ((s.regValue a).toNat = v)
        sign := decide (2 ^ (cfg.width - 1) ≤ ((s.regValue a).toNat + (2 ^ cfg.width - v)) % 2 ^ cfg.width)
        pc := bitsW cfg.width (s.pc.toNat + 3) }⟩ := by
  have hr := resultIs_subW cfg.subCarryBZero (s.regValue a) q
  rw [hexec, compare_eq, hsrc.fault_eq, hsrc.value_eq, cell_toNat ha, hr.flags_eq, hv]
  rfl

/-- Settles O23: the three compares, by source mode. -/
theorem cmpCompletes : Obligations.CmpCompletes := by
  intro cfg s a b ha hb
  exact ⟨exec_of_compare ha (reads_reg s hb) rfl rfl, exec_of_compare ha (reads_imm s _) rfl (cell_toNat hb),
    exec_of_compare ha (reads_mem s hb) rfl rfl⟩

/-! ### A jump to a label -/

/-- Settles O27: `bits_W` turns the sum and the multiple of R291 into sums of cells, where the index cancels. -/
theorem labelDisplacementLands : Obligations.LabelDisplacementLands := by
  intro cfg s base index label hpc
  have htarget : s.relTarget (bitsW cfg.width ((label : Int) - index)) = bitsW cfg.width (base + 3 * label) := by
    rw [relTarget, bitsW_add, bitsW_mul, bitsW_toInt_self, bitsW_toNat_self, hpc, ← bitsW_mul, ← bitsW_add]
    congr 1
    ring
  rw [exec_of_jumpRel (taken_always s) rfl, if_pos rfl, cell, bitsW_toNat_self, htarget]

/-! ### Output, halt, no-op -/

/-- An instruction that is an output, for every source mode. -/
theorem exec_of_output (hsrc : Reads s m c q errs) (hexec : exec i ⟨cfg, s⟩ = .next ⟨cfg, s.output m c⟩) :
    exec i ⟨cfg, s⟩ = .next ⟨cfg,
      { s with
        pc := bitsW cfg.width (s.pc.toNat + 3)
        errors := s.errors ++ errs
        events := s.events ++ errs.map .error ++ [.out q] }⟩ := by
  rw [hexec, output_eq, hsrc.fault_eq, hsrc.value_eq]
  rfl

/-- Settles O29: the two outputs, by source mode. -/
theorem outCompletes : Obligations.OutCompletes := by
  intro cfg s a ha
  exact ⟨exec_of_output (reads_reg s ha) rfl, exec_of_output (reads_mem s ha) rfl⟩

/-- Settles O30: both are the pc advance, HLT after setting the engine state. -/
theorem haltAndNopComplete : Obligations.HaltAndNopComplete := fun _ _ => ⟨rfl, rfl⟩

end Sys2Proof.Machine.CoreState
end

section
/-! PROOFS. Construction and program load (70_reset_and_hazards.md R390, R391, R393): the checks in their order, and
what a load of whole Bytes leaves in every cell. -/

namespace Sys2Proof.Machine

/-! ### Construction -/

section Construct

variable {w r : Nat} (m : Nat) {map : Vector Nat 37} (bz : Bool) (ord : CmpOrder)

theorem construct_of_width_lt (hw : w < 1) : construct w r m map bz ord = .error (.cfgWidth w) :=
  dif_neg (Nat.not_le.2 hw)

theorem construct_of_regCount_lt (hw : 1 ≤ w) (hr : r < 1) : construct w r m map bz ord = .error (.cfgRegs r) :=
  (dif_pos hw).trans (dif_neg (Nat.not_le.2 hr))

theorem construct_of_shared (hw : 1 ≤ w) (hr : 1 ≤ r) (hmap : ¬ map.toList.Nodup) :
    construct w r m map bz ord = .error .badOpcodeMap :=
  (dif_pos hw).trans ((dif_pos hr).trans (dif_neg hmap))

theorem construct_of_checked (hw : 1 ≤ w) (hr : 1 ≤ r) (hmap : map.toList.Nodup) :
    construct w r m map bz ord =
      .ok ⟨⟨w, r, m, map, bz, ord, hw, hr, hmap⟩, CoreState.initial ⟨w, r, m, map, bz, ord, hw, hr, hmap⟩⟩ :=
  (dif_pos hw).trans ((dif_pos hr).trans (dif_pos hmap))

end Construct

/-- A command answers a state of the configuration it was given. -/
theorem cfg_of_command {cfg : Config} {s : CoreState cfg} {c : Command} {u : State}
    (h : State.command c ⟨cfg, s⟩ = .next u) : u.cfg = cfg := by
  obtain ⟨t, ht, -⟩ := CoreState.command_logsGrow c s
  obtain rfl : State.mk cfg t = u := Host.Outcome.next.inj (ht.symm.trans h)
  rfl

/-- Settles O36: each check's branch of `construct`, and the construction state of a configuration that passes. -/
theorem constructChecks : Obligations.ConstructChecks := by
  intro w r m map bz ord
  refine ⟨construct_of_width_lt m bz ord, construct_of_regCount_lt m bz ord, fun hw hr hmap => ?_⟩
  exact ⟨_, _, construct_of_checked m bz ord hw hr hmap, rfl, rfl, rfl, rfl, rfl, rfl, fun _ => ⟨rfl, rfl⟩,
    rfl, rfl, rfl, rfl, rfl, rfl, rfl, rfl, rfl, fun _ _ _ => cfg_of_command⟩

/-- Settles O37: a configuration with that OPCODE_MAP would not be injective on variants. -/
theorem sharedOpcodeMapRefused : Obligations.SharedOpcodeMapRefused := by
  intro w r m map bz ord u v hw hr huv hshared
  refine construct_of_shared m bz ord hw hr fun hmap => huv ?_
  exact Config.opcode_injective ⟨w, r, m, map, bz, ord, hw, hr, hmap⟩ hshared

namespace CoreState

variable {cfg : Config}

/-! ### Malformed host inputs -/

theorem loadProgram_of_address_too_long {address : Bits} (h : cfg.width < address.length) (bits : Bits)
    (s : CoreState cfg) : s.loadProgram bits address = s.report [.hostAddrFormat address] := if_pos h

theorem loadProgram_of_bad_length {bits address : Bits} (ha : address.length ≤ cfg.width)
    (hb : bits.length % cfg.width ≠ 0) (s : CoreState cfg) :
    s.loadProgram bits address = s.report [.hostLoadLength bits.length] :=
  (if_neg (Nat.not_lt.2 ha)).trans (if_pos hb)

/-- Settles O40: the checks of `loadProgram` and `run`, each of which reports one error. -/
theorem malformedHostInputsOnlyReport : Obligations.MalformedHostInputsOnlyReport := by
  intro cfg s limit bits address
  exact ⟨fun ha => ⟨loadProgram_of_address_too_long ha bits s, runWith_of_address_too_long limit ha s⟩,
    fun ha hb => loadProgram_of_bad_length ha hb s⟩

/-! ### Bytes of a program -/

@[simp] theorem bytesOf_length (w n : Nat) (bits : Bits) : (bytesOf w n bits).length = n := by
  induction n generalizing bits with
  | zero => rfl
  | succ n ih => rw [bytesOf, List.length_cons, ih]

theorem length_le_of_mem_bytesOf {w n : Nat} {bits v : Bits} (h : v ∈ bytesOf w n bits) : v.length ≤ w := by
  induction n generalizing bits with
  | zero => exact absurd h List.not_mem_nil
  | succ n ih =>
    rcases List.mem_cons.1 h with rfl | h
    · exact List.length_take_le ..
    · exact ih h

/-- Byte `k` of a program is `w` bits from bit `k * w` on. -/
theorem bytesOf_getElem? {w n k : Nat} (bits : Bits) (h : k < n) :
    (bytesOf w n bits)[k]? = some ((bits.drop (k * w)).take w) := by
  induction n generalizing bits k with
  | zero => exact absurd h (Nat.not_lt_zero k)
  | succ n ih =>
    cases k with
    | zero => simp [bytesOf]
    | succ k =>
      rw [bytesOf, List.getElem?_cons_succ, ih _ (Nat.lt_of_succ_lt_succ h), List.drop_drop, Nat.succ_mul, Nat.add_comm]

/-! ### Loading Bytes -/

/-- The address of Byte `k` of a load at address `a`, mod `2^W`. -/
def loadAddr (a : Byte cfg.width) (k : Nat) : Nat := (a.toNat + k) % 2 ^ cfg.width

theorem loadAddr_zero (a : Byte cfg.width) : loadAddr a 0 = a.toNat := Nat.mod_eq_of_lt a.isLt

/-- The ALU increment advances the address (R393). -/
theorem loadAddr_incW (a : Byte cfg.width) (k : Nat) : loadAddr (incW a).1 k = loadAddr a (k + 1) := by
  rw [loadAddr, loadAddr, incW, addW_fst_toNat, bitsW_one_toNat cfg.width_pos, Nat.mod_add_mod]
  congr 1
  ring

/-- The RAM that a load of Bytes at address `a` leaves. -/
def loadedRam : List Bits → Byte cfg.width → Memory cfg.width → Memory cfg.width
  | [], _, m => m
  | v :: rest, a, m => loadedRam rest (incW a).1 (storeBelow cfg.ramCells m a.toNat (v.toByte cfg.width))

theorem memWriteBits_eq (c : Byte cfg.width) {value : Bits} (h : value.length ≤ cfg.width) (s : CoreState cfg) :
    s.memWriteBits c value =
      { s.report (ramFault cfg c.toNat) with
        ram := storeBelow cfg.ramCells s.ram c.toNat (value.toByte cfg.width) } := by
  rw [memWriteBits, if_neg (Nat.not_lt.2 h), memWrite_eq]

theorem loadBytes_eq (bytes : List Bits) (hbytes : ∀ v ∈ bytes, v.length ≤ cfg.width) (a : Byte cfg.width)
    (s : CoreState cfg) :
    s.loadBytes bytes a =
      { s.report ((List.range bytes.length).flatMap fun k => ramFault cfg (loadAddr a k)) with
        ram := loadedRam bytes a s.ram } := by
  induction bytes generalizing a s with
  | nil => simp [loadBytes, loadedRam]
  | cons v rest ih =>
    obtain ⟨hv, hrest⟩ := List.forall_mem_cons.1 hbytes
    rw [loadBytes, ih hrest, memWriteBits_eq a hv, List.length_cons, List.range_succ_eq_map, List.flatMap_cons,
      List.flatMap_map, loadAddr_zero, ← report_report]
    simp only [loadAddr_incW]
    rfl

/-- A cell that no stored Byte belongs to reads as before. -/
theorem loadedRam_read_of_ne (bytes : List Bits) (a : Byte cfg.width) (m : Memory cfg.width) (hm : m.wf = true)
    (c : Nat) (h : ∀ k, k < bytes.length → loadAddr a k < cfg.ramCells → c ≠ loadAddr a k) :
    (loadedRam bytes a m).read c = m.read c := by
  induction bytes generalizing a m with
  | nil => rfl
  | cons v rest ih =>
    have hhead := h 0 (Nat.succ_pos _)
    rw [loadAddr_zero] at hhead
    rw [loadedRam, ih _ _ (wf_storeBelow _ _ _ _ hm)]
    · exact read_storeBelow_of_ne hm _ (by omega)
    · intro k hk
      rw [loadAddr_incW]
      exact h (k + 1) (Nat.succ_lt_succ hk)

/-- The last Byte that belongs to a cell of the RAM stands in it. -/
theorem loadedRam_read_of_last (bytes : List Bits) (a : Byte cfg.width) (m : Memory cfg.width) (hm : m.wf = true)
    {k : Nat} {v : Bits} (hk : bytes[k]? = some v) (hcell : loadAddr a k < cfg.ramCells)
    (hlast : ∀ j, k < j → j < bytes.length → loadAddr a j ≠ loadAddr a k) :
    (loadedRam bytes a m).read (loadAddr a k) = v.toByte cfg.width := by
  induction bytes generalizing a m k with
  | nil => exact nomatch hk
  | cons u rest ih =>
    rw [loadedRam]
    have hwf := wf_storeBelow cfg.ramCells m a.toNat (u.toByte cfg.width) hm
    cases k with
    | zero =>
      obtain rfl : u = v := Option.some.inj hk
      rw [loadedRam_read_of_ne rest _ _ hwf, loadAddr_zero]
      · rw [loadAddr_zero] at hcell
        rw [storeBelow, if_pos hcell, Memory.read_write_self m _ _ hm]
      · intro j hj _
        rw [loadAddr_incW]
        exact (hlast (j + 1) (Nat.succ_pos j) (Nat.succ_lt_succ hj)).symm
    | succ k =>
      rw [← loadAddr_incW] at hcell ⊢
      refine ih _ _ hwf hk hcell fun j hkj hj => ?_
      rw [loadAddr_incW, loadAddr_incW]
      exact hlast (j + 1) (Nat.succ_lt_succ hkj) (Nat.succ_lt_succ hj)

theorem loadProgram_of_bytes {bits address : Bits} {n : Nat} (ha : address.length ≤ cfg.width)
    (hbits : bits.length = n * cfg.width) (s : CoreState cfg) :
    s.loadProgram bits address = s.loadBytes (bytesOf cfg.width n bits) (address.toByte cfg.width) := by
  have hmod : bits.length % cfg.width = 0 := by rw [hbits, Nat.mul_mod_left]
  have hdiv : bits.length / cfg.width = n := by rw [hbits, Nat.mul_div_cancel _ cfg.width_pos]
  rw [loadProgram, if_neg (Nat.not_lt.2 ha), if_neg (not_not.2 hmod), hdiv]

/-- Settles O39: the load is the Bytes written one after the other. -/
theorem loadProgramStoresBytes : Obligations.LoadProgramStoresBytes := by
  intro cfg s bits address n hs ha hbits cellOf
  have hcell : cellOf = loadAddr (address.toByte cfg.width) := by
    funext k
    rw [loadAddr, Bits.toByte_toNat _ _ ha]
  have hlen := bytesOf_length cfg.width n bits
  rw [hcell]
  refine ⟨loadedRam (bytesOf cfg.width n bits) (address.toByte cfg.width) s.ram, ?_, fun k hk hin hlast => ?_,
    fun c hc => ?_⟩
  · rw [loadProgram_of_bytes ha hbits, loadBytes_eq _ (fun v => length_le_of_mem_bytesOf), hlen]
  · rw [loadedRam_read_of_last _ _ _ hs (bytesOf_getElem? bits hk) hin (by rwa [hlen]),
      Bits.toByte_toNat _ _ (List.length_take_le ..)]
  · exact loadedRam_read_of_ne _ _ _ hs c (by rwa [hlen])

end CoreState

end Sys2Proof.Machine
end

section
/-! PROOFS. How a run ends (40_execution_cycle.md R170, R174, R359): halted within the limit, as the host's single steps
counted, and at the limit for a jump to itself. -/

namespace Sys2Proof.Machine.CoreState

variable {cfg : Config} {s t : CoreState cfg}

theorem engineAfter_of_running {op : Option Variant} (h : op ≠ some .hlt) : engineAfter op .running = .running := by
  rw [engineAfter_eq, if_neg h]

/-! ### Termination -/

/-- The end of a run under a limit: halted within it, by a HLT or, at the limit, by ERR_LOOP (R174). -/
def EndsRun (limit : Nat) (t : CoreState cfg) : Prop :=
  t.engine = .halted ∧ t.steps ≤ limit ∧
    (decodeOpcode cfg t.ir.toNat = some .hlt ∨ (t.steps = limit ∧ t.errors.getLast? = some (.errLoop t.pc)))

/-- With fuel for one more round than there are steps left, the loop reaches an end of the run. -/
theorem runLoop_endsRun {limit fuel : Nat} (hrun : s.engine = .running) (hsteps : s.steps ≤ limit)
    (hfuel : limit < s.steps + fuel) :
    ∃ t : CoreState cfg, runLoop limit fuel ⟨cfg, s⟩ = .next ⟨cfg, t⟩ ∧ EndsRun limit t := by
  induction fuel generalizing s with
  | zero => omega
  | succ fuel ih =>
    rcases hsteps.lt_or_eq with hlt | heq
    · obtain ⟨t, ht, -⟩ := step_logsGrow s
      obtain ⟨-, htsteps, htengine⟩ := hidden_of_step ht
      have hcount : t.countStep.steps = s.steps + 1 := by rw [countStep_steps, htsteps]
      rw [runLoop_of_step fuel hrun hlt ht]
      rw [hrun] at htengine
      by_cases hhlt : decodeOpcode cfg t.ir.toNat = some .hlt
      · have hhalted : t.countStep.engine = .halted := by rw [countStep_engine, htengine, hhlt]; rfl
        refine ⟨t.countStep, runLoop_of_not_running _ _ (by rw [hhalted]; decide), hhalted, by omega, .inl hhlt⟩
      · exact ih (htengine.trans (engineAfter_of_running hhlt)) (by omega) (by omega)
    · refine ⟨s.stopAtLimit, runLoop_at_limit fuel hrun heq.ge, rfl, hsteps, .inr ⟨heq, ?_⟩⟩
      exact List.getLast?_concat

/-- Settles O41: the start of a run counts no step, and its fuel is one more than the limit. -/
theorem runTerminatesHalted : Obligations.RunTerminatesHalted := by
  intro cfg s limit start hstart
  rw [runWith_of_address_fits limit hstart]
  exact runLoop_endsRun rfl (Nat.zero_le _) (by rw [beginRun_steps]; omega)

/-! ### A run as single steps -/

/-- A step does the same under any step counter, which it keeps. -/
theorem step_withSteps (n : Nat) (h : step ⟨cfg, s⟩ = .next ⟨cfg, t⟩) :
    step ⟨cfg, { s with steps := n }⟩ = .next ⟨cfg, { t with steps := n }⟩ := by
  obtain ⟨u, errs, evs, hstep⟩ := stepIgnoresHidden s
  obtain rfl := next_injective (hstep s.hidden) h
  exact hstep { s.hidden with steps := n }

section Trace

variable {limit n : Nat} {trace : Nat → CoreState cfg}

/-- From state `k` of a trace of running states, counted so far, the loop goes through the rest of the trace. -/
theorem runLoop_of_trace (hn : n < limit)
    (hstep : ∀ k, k ≤ n → step ⟨cfg, trace k⟩ = .next ⟨cfg, trace (k + 1)⟩)
    (hrun : ∀ k, k ≤ n → (trace k).engine = .running) (hhalted : (trace (n + 1)).engine = .halted)
    {k fuel : Nat} (hk : k ≤ n + 1) (hfuel : n + 1 ≤ k + fuel) :
    runLoop limit fuel ⟨cfg, { trace k with steps := k }⟩ = .next ⟨cfg, { trace (n + 1) with steps := n + 1 }⟩ := by
  induction fuel generalizing k with
  | zero =>
    obtain rfl : k = n + 1 := by omega
    rfl
  | succ fuel ih =>
    rcases Nat.lt_or_ge n k with hdone | hk
    · obtain rfl : k = n + 1 := by omega
      refine runLoop_of_not_running _ _ ?_
      rw [hhalted]
      decide
    · have hlt : k < limit := by omega
      have hcounted := step_withSteps k (hstep k hk)
      exact (runLoop_of_step (s := { trace k with steps := k }) fuel (hrun k hk) hlt hcounted).trans
        (ih (by omega) (by omega))

end Trace

/-- Settles O42: the run starts in state 0 of the trace with no step counted. -/
theorem runIsCountedSteps : Obligations.RunIsCountedSteps := by
  intro cfg s limit n start trace hstart hn hbegin hstep hrun hhalted
  have hzero : s.beginRun (start.toByte cfg.width) = { trace 0 with steps := 0 } := by rw [hbegin]; rfl
  rw [runWith_of_address_fits limit hstart, hzero]
  exact runLoop_of_trace hn hstep hrun hhalted (Nat.zero_le _) (by omega)

/-! ### A jump to itself -/

/-- The two cells at pc lie in RAM and are `JMP!` with displacement 0. -/
structure AtSelfJump (s : CoreState cfg) : Prop where
  opcode_lt : s.pc.toNat < cfg.ramCells
  operand_lt : (s.operandAddr 1).toNat < cfg.ramCells
  opcode_eq : (s.ram.read s.pc.toNat).toNat = cfg.opcode .jmpD
  operand_eq : s.ram.read (s.operandAddr 1).toNat = 0

theorem relTarget_zero (s : CoreState cfg) : s.relTarget 0 = s.pc := by simp [relTarget]

theorem exec_jmpD_of_relTarget_eq_pc {a : Operand} (h : s.relTarget (cell cfg a) = s.pc) :
    exec (.jmpD a) ⟨cfg, s⟩ = .next ⟨cfg, s⟩ := by
  rw [exec_of_jumpRel (taken_always s) rfl, if_pos rfl, h]

/-- The state after the step of a jump to itself: all but ir and the event log is as before. -/
def afterSelfJump (s : CoreState cfg) : CoreState cfg :=
  { s with ir := s.ram.read s.pc.toNat, events := s.events ++ [.step s.pc] }

theorem AtSelfJump.step_eq (h : s.AtSelfJump) : step ⟨cfg, s⟩ = .next ⟨cfg, s.afterSelfJump⟩ := by
  obtain ⟨hpc, hA, hop, hzero⟩ := h
  have hoperands : s.operandFault .jmpD = [] := by simp [operandFault, Variant.arity, ramFault_of_lt hA]
  have hfetched : s.fetched .jmpD = { s with ir := s.ram.read s.pc.toNat } := by
    rw [fetched, ramFault_of_lt hpc, hoperands, List.append_nil, report_nil, ramValue_of_lt hpc]
  have htarget : (s.fetched .jmpD).relTarget (cell cfg (0 : Byte cfg.width).toNat) = (s.fetched .jmpD).pc := by
    rw [cell, bitsW_toNat_self, relTarget_zero]
  rw [step_of_opcode s .jmpD (by rw [ramValue_of_lt hpc, hop]), ramValue_of_lt hA, hzero, Variant.instr,
    exec_jmpD_of_relTarget_eq_pc htarget, hfetched]
  rfl

theorem AtSelfJump.afterStep (h : s.AtSelfJump) : s.afterSelfJump.countStep.AtSelfJump :=
  ⟨h.opcode_lt, h.operand_lt, h.opcode_eq, h.operand_eq⟩

/-- The loop at a jump to itself: every step up to the limit, then ERR_LOOP. -/
theorem AtSelfJump.runLoop_eq {limit fuel : Nat} (h : s.AtSelfJump) (hrun : s.engine = .running)
    (hsteps : s.steps ≤ limit) (hfuel : limit < s.steps + fuel) :
    ∃ t : CoreState cfg,
      runLoop limit fuel ⟨cfg, s⟩ = .next ⟨cfg, t⟩ ∧ t.engine = .halted ∧ t.steps = limit ∧ t.pc = s.pc ∧
      t.errors = s.errors ++ [.errLoop s.pc] ∧
      t.events = s.events ++ List.replicate (limit - s.steps) (.step s.pc) ++ [.error (.errLoop s.pc)] := by
  induction fuel generalizing s with
  | zero => omega
  | succ fuel ih =>
    rcases hsteps.lt_or_eq with hlt | heq
    · have hcount : s.afterSelfJump.countStep.steps = s.steps + 1 := rfl
      obtain ⟨t, hloop, hengine, hend, htpc, herrs, hevs⟩ := ih h.afterStep hrun hlt (by omega)
      refine ⟨t, (runLoop_of_step fuel hrun hlt h.step_eq).trans hloop, hengine, hend, htpc, herrs, hevs.trans ?_⟩
      have hleft : limit - s.steps = limit - (s.steps + 1) + 1 := by omega
      rw [hleft, List.replicate_succ, List.append_cons s.events (.step s.pc) (List.replicate _ _)]
      rfl
    · refine ⟨s.stopAtLimit, runLoop_at_limit fuel hrun heq.ge, rfl, heq, rfl, rfl, ?_⟩
      rw [heq, Nat.sub_self, List.replicate_zero, List.append_nil]
      rfl

/-- Settles O43: the run starts at the jump with no step counted. -/
theorem selfJumpRunsIntoLimit : Obligations.SelfJumpRunsIntoLimit := by
  intro cfg s limit start hstart hop hA hopc hzero
  have hpc : (start.toByte cfg.width).toNat = start.uint := Bits.toByte_toNat _ _ hstart
  have haddr : ((s.beginRun (start.toByte cfg.width)).operandAddr 1).toNat = (start.uint + 1) % 2 ^ cfg.width := by
    rw [← hpc]
    exact bitsW_toNat cfg.width _
  have hat : (s.beginRun (start.toByte cfg.width)).AtSelfJump :=
    ⟨by rwa [beginRun_pc, hpc], by rwa [haddr], by rwa [beginRun_pc, beginRun_ram, hpc], by rwa [haddr]⟩
  obtain ⟨t, hloop, hengine, hcount, htpc, herrs, hevs⟩ :=
    hat.runLoop_eq (limit := limit.val) (fuel := limit.val + 1) rfl (Nat.zero_le _) (by rw [beginRun_steps]; omega)
  rw [beginRun_pc] at htpc
  refine ⟨t, (runWith_of_address_fits limit hstart s).trans hloop, hengine, hcount, by rw [htpc, hpc], ?_, ?_⟩
  · rw [htpc]
    exact herrs
  · rw [htpc]
    exact hevs

end Sys2Proof.Machine.CoreState
end

section
/-! PROOFS. What the assembler accepts (30_encoding.md R127 to R130, R132): well-formed instructions, whose binary
decodes to them one after the other. -/

namespace Sys2Proof.Machine

/-- Settles O55: both lines are run through the two passes at the default configuration. -/
theorem workedEncodings : Obligations.WorkedEncodings := ⟨by decide, by decide⟩

/-! ### Accepted instructions -/

/-- A key that is found selects a variant whose opcode fits the width (R9). -/
theorem opcode_lt_of_lookupKey {cfg : Config} {key : Text} {n : Nat} {v : Variant}
    (h : lookupKey cfg key n = some v) : cfg.opcode v < 2 ^ cfg.width := by
  unfold lookupKey at h
  split at h
  · split at h
    next hfits => exact Option.some.inj h ▸ hfits.1
    next => exact nomatch h
  · exact nomatch h

theorem wellFormed_of_assembleInstr {cfg : Config} {labels : List (Text × Nat)} {index line : Nat} {t : Text}
    {i : Instr} (h : assembleInstr cfg labels index line t = .ok i) : i.WellFormed cfg := by
  unfold assembleInstr at h
  split at h
  next => exact nomatch h
  next os _ =>
    dsimp only at h
    split at h
    next => exact nomatch h
    next v hkey =>
      split at h
      next => exact nomatch h
      next cells _ => exact Except.ok.inj h ▸ wellFormed_instr (opcode_lt_of_lookupKey hkey) _ _

theorem wellFormed_of_mem_pass2 {cfg : Config} {labels : List (Text × Nat)} {queue : List (Nat × Text)} {index : Nat}
    {is : List Instr} (h : pass2 cfg labels queue index = .ok is) : ∀ i ∈ is, i.WellFormed cfg := by
  induction queue generalizing index is with
  | nil =>
    obtain rfl : [] = is := Except.ok.inj h
    exact fun i hi => absurd hi List.not_mem_nil
  | cons q rest ih =>
    rw [pass2] at h
    split at h
    next => exact nomatch h
    next i hi =>
      cases hrest : pass2 cfg labels rest (index + 1) with
      | error e => rw [hrest] at h; exact nomatch h
      | ok js =>
        rw [hrest] at h
        obtain rfl : i :: js = is := Except.ok.inj h
        exact List.forall_mem_cons.2 ⟨wellFormed_of_assembleInstr hi, ih hrest⟩

/-- Settles O56: `assemble` is pass 2 over what pass 1 queued. -/
theorem assembledInstructionsWellFormed : Obligations.AssembledInstructionsWellFormed :=
  fun _ _ _ h => wellFormed_of_mem_pass2 h

/-! ### The binary of a program -/

theorem programBits_cons (cfg : Config) (i : Instr) (is : List Instr) :
    programBits cfg (i :: is) = encodeBits cfg i ++ programBits cfg is := rfl

theorem programBits_length (cfg : Config) (is : List Instr) :
    (programBits cfg is).length = 3 * cfg.width * is.length := by
  induction is with
  | nil => rfl
  | cons i is ih => rw [programBits_cons, List.length_append, encodeBits_length, ih, List.length_cons]; ring

/-- The binary from instruction `k` on begins with the stream word of instruction `k`. -/
theorem drop_programBits (cfg : Config) {is : List Instr} {k : Nat} {i : Instr} (h : is[k]? = some i) :
    (programBits cfg is).drop (3 * cfg.width * k) = encodeBits cfg i ++ programBits cfg (is.drop (k + 1)) := by
  obtain ⟨hk, rfl⟩ := List.getElem?_eq_some_iff.1 h
  have hlen : (programBits cfg (is.take k)).length = 3 * cfg.width * k := by
    rw [programBits_length, List.length_take_of_le hk.le]
  have hsplit : programBits cfg is = programBits cfg (is.take k) ++ programBits cfg (is.drop k) := by
    rw [programBits, programBits, programBits, ← List.flatMap_append, List.take_append_drop]
  rw [hsplit, List.drop_left' hlen, List.drop_eq_getElem_cons hk, programBits_cons]

/-- Settles O57: a compiled program is the stream words of well-formed instructions. -/
theorem compiledProgramDecodes : Obligations.CompiledProgramDecodes := by
  intro cfg text is h
  refine ⟨programBits cfg is, by rw [compile, h]; rfl, programBits_length cfg is, fun k i hi => ?_⟩
  have hwf := assembledInstructionsWellFormed cfg text is h i (List.mem_of_getElem? hi)
  rw [drop_programBits cfg hi]
  exact decode_encodeBits hwf _

end Sys2Proof.Machine
end
